-- ==== Sys2Proof/Word.lean ====
section
/-! DEFINITION. Word: the value types of rule R8 (spec/00_scope.md). Nothing is signed. -/

namespace Sys2Proof

/-- An unsigned 8-bit value (R8 `byte`); bit 7 is the most significant (R6). -/
abbrev Byte := BitVec 8

/-- An unsigned 16-bit value (R8 `word16`); bit 15 is the most significant (R6). -/
abbrev Word16 := BitVec 16

end Sys2Proof
end

