-- ==== Sys2Proof/Config.lean ====
section
/-! DEFINITION. Config: the parameters of rule R5 (spec/00_scope.md) and the one free value of the spec,
the level of `hdr_o` under a fault (spec/41_ports.md R87). -/

namespace Sys2Proof

/-- Length of the output header in bytes (R5, `HDR_BYTES`). -/
abbrev Config.hdrBytes : Nat := 12

/-- Least request length with which the operation is defined (R5, `REQ_MIN_BYTES`; conflict C1). -/
abbrev Config.reqMinBytes : Nat := 6

/-- Number of response-code bits that reach the output (R5, `RCODE_BITS`). -/
abbrev Config.rcodeBits : Nat := 4

/-- Width of the port `req_len_i` of this hardware (R5, `LEN_W`; decision D5). -/
abbrev Config.lenW : Nat := 16

/-- Width of the port `rcode_i` of this hardware (R5, `RCODE_W`; decision D4). -/
abbrev Config.rcodeW : Nat := 8

/-- What a request shorter than six bytes does (R5, `SHORT_REQ_POLICY`): the two behaviours that
spec/93_implementation_defined.md U1 writes out. -/
inductive ShortReqPolicy where
  | fault     -- raise UndersizedRequest (decision D3)
  | zeroFill  -- a missing byte reads as zero (U1 continued)
deriving DecidableEq, Repr

/-- The policy of this hardware (decision D3). -/
def Config.shortReqPolicy : ShortReqPolicy := .fault

/-- FREE VALUE: what `hdr_o` shows at the `n`-th sampling while `err_o = 1` (R87, U5: "a free 96-bit
draw under no law"). It has no body, so nothing can be proved of it (log entry 8). -/
opaque Config.hdrUnspecified : Nat → BitVec 96

end Sys2Proof
end

