-- ==== Sys2Proof/Syntax.lean ====
section
/-! DEFINITION. Syntax: the operations of spec/opcode_table.json, one constructor a row (spec/30_encoding.md
R47, R52, R53). The operands are values, one snapshot of what the caller presents (spec/10_state.md R16,
spec/20_memory.md R28, R30). `out` is no operand: it is the header the operation creates (R16, R18). -/

namespace Sys2Proof

/-- The two rows of the operation map (R47). `req` is the request, a byte string of any length `L`
(`L = req.length`); `rc` is the response code, any natural number (R8, conflict C2). -/
inductive Instr where
  /-- `ENCODE_HEADER out, req, rc` (R60). -/
  | encodeHeader (req : List Byte) (rc : Nat)
  /-- `ENCODE_HEADER out, req`, the default form (R53, R70). -/
  | encodeHeaderDefault (req : List Byte)
deriving DecidableEq, Repr

/-- The request operand of either form. -/
def Instr.req : Instr → List Byte
  | .encodeHeader req _ => req
  | .encodeHeaderDefault req => req

end Sys2Proof
end

