-- ==== Sys2Proof/WellFormed.lean ====
section
/-! DEFINITION. WellFormed: the one check on an operation (spec/30_encoding.md R48: an undersized request "is
the only illegal input"; spec/70_reset_and_hazards.md R123). -/

namespace Sys2Proof

/-- The caller's duty (R123): the request has at least six bytes. Any bytes and any response code are
legal (R130, U2, U4). An operation that fails this check still has a meaning: the fault of R100. -/
def Instr.wellFormed (i : Instr) : Bool := decide (Config.reqMinBytes ≤ i.req.length)

end Sys2Proof
end

