-- ==== Sys2Proof/Decode.lean ====
section
/-! DEFINITION. Decode: the result format RESP_HDR (spec/30_encoding.md R44, R47), the only bit-level encoding the
spec gives an operation: a 12-byte word stands for the operation that produces it, with the operands R54
reads out of it. Then the encoder, and the words of spec/opcode_table.json. -/

namespace Sys2Proof

/-- The response code of either form: the default form has code 0 (R53). -/
def Instr.rc : Instr → Nat
  | .encodeHeader _ rc => rc
  | .encodeHeaderDefault _ => 0

/-- The byte of the request operand at offset `k`, zero where it does not exist. -/
def byteOrZero (req : List Byte) (k : Nat) : Byte := req.getD k 0

/-- The six bytes of the request with the ignored positions (bytes 2, 3 and every byte from 6 up: R50) cleared. -/
def usedBytes (req : List Byte) : List Byte :=
  [byteOrZero req 0, byteOrZero req 1, 0, 0, byteOrZero req 4, byteOrZero req 5]

/-- The operation with every ignored input bit (R50) cleared: the request cut to the four bytes that are
read, the response code to its low four bits, written in the default form where that code is 0. -/
def Instr.canonical (i : Instr) : Instr :=
  if i.rc % 16 = 0 then .encodeHeaderDefault (usedBytes i.req)
  else .encodeHeader (usedBytes i.req) (i.rc % 16)

/-- Why a byte string is the encoding of no operation. -/
inductive DecodeError where
  /-- fewer than twelve bytes, `n` of them: the format is always twelve (R55) -/
  | truncated (n : Nat)
  /-- QR (`hdr[79]`) is 0: no header the block produces (R51) -/
  | queryBit
  /-- a bit of `hdr[78:68]` is 1: those are forced to 0 (R51) -/
  | forcedFlagSet
  /-- ANCOUNT, NSCOUNT or ARCOUNT is not 0 (R51) -/
  | recordCount
deriving DecidableEq, Repr

/-- What decoding answers: an operation with the bytes after it, or a refusal by name. -/
inductive Decoded where
  | ok (i : Instr) (rest : List Byte)
  | reject (e : DecodeError)
deriving DecidableEq, Repr

/-- The operation that a word with response code `r` stands for: the row of the default form fixes
`rrrr = 0000` (R47) and is tried first (log entry 3). -/
def operationOf (req : List Byte) (r : BitVec 4) : Instr :=
  if r = 0 then .encodeHeaderDefault req else .encodeHeader req r.toNat

/-- Decode the operation at the head of a byte string (R44, R54), offset 0 first. The operands are those
R54 names, with zeros in the ignored positions and `L = 6` (log entry 2). -/
def decode : List Byte → Decoded
  | b0 :: b1 :: b2 :: b3 :: b4 :: b5 :: b6 :: b7 :: b8 :: b9 :: b10 :: b11 :: rest =>
    if b2.extractLsb' 7 1 = 0 then .reject .queryBit
    else if b2.extractLsb' 0 7 ≠ 0 ∨ b3.extractLsb' 4 4 ≠ 0 then .reject .forcedFlagSet
    else if [b6, b7, b8, b9, b10, b11] ≠ [0, 0, 0, 0, 0, 0] then .reject .recordCount
    else .ok (operationOf [b0, b1, 0, 0, b4, b5] (b3.extractLsb' 0 4)) rest
  | bs => .reject (.truncated bs.length)

/-- The twelve bytes that encode a well-formed operation, field by field as the "source" column of
spec/opcode_table.json gives them: the header the operation produces (R44, R47). -/
def encode (i : Instr) : List Byte :=
  [byteOrZero i.req 0, byteOrZero i.req 1,
   0x80, (BitVec.ofNat Config.rcodeBits i.rc).setWidth 8,
   byteOrZero i.req 4, byteOrZero i.req 5,
   0, 0, 0, 0, 0, 0]

/-- The twelve bytes of a 96-bit vector: byte `k` is bits `95-8k : 88-8k` (R6, R85). -/
def vecBytes (v : BitVec 96) : List Byte :=
  (List.range Config.hdrBytes).map fun k => v.extractLsb' (88 - 8 * k) 8

/-- A row of spec/opcode_table.json: a word belongs to it when `word & mask = pattern`. -/
structure TableRow where
  mnemonic : String
  mask : BitVec 96
  pattern : BitVec 96
deriving DecidableEq, Repr

/-- The row `ENCODE_HEADER` (R44, R47). -/
def rowEncodeHeader : TableRow :=
  ⟨"ENCODE_HEADER", 0x0000FFF00000FFFFFFFFFFFF, 0x000080000000000000000000⟩

/-- The row `ENCODE_HEADER.default` (R47): it also fixes the four RCODE bits. -/
def rowEncodeHeaderDefault : TableRow :=
  ⟨"ENCODE_HEADER.default", 0x0000FFFF0000FFFFFFFFFFFF, 0x000080000000000000000000⟩

/-- A word belongs to a row of the table. -/
def TableRow.accepts (r : TableRow) (v : BitVec 96) : Bool := (v &&& r.mask) == r.pattern

/-- The operation the decoder reads from a word of spec/opcode_table.json: one 96-bit word, its bit 95 the
most significant bit of byte 0 (the table's "bit_order"), laid out in bytes and given to `decode`.
DESIGN CHOICE (log entry 19): the spec has only 96-bit words (R47, R55). A word of fewer bits is read with
zeros above it, up to 96 bits, so one of 80 to 95 bits can decode, its leading ID bits zero; a word of more
than 96 bits is no operation. -/
def decodeTableWord (nbits w : Nat) : Option Instr :=
  if nbits ≤ 96 then
    match decode (vecBytes (BitVec.ofNat 96 (w % 2 ^ nbits))) with
    | .ok i _ => some i
    | .reject _ => none
  else none

end Sys2Proof
end

