-- ==== Sys2Proof/Machine/State.lean ====
section
/-! DEFINITION. State: the block itself has no state (spec/10_state.md R10 to R15). What State holds passes between
the caller and the block (R16): the two address spaces REQ and OUT (spec/20_memory.md R20), the input ports
(spec/41_ports.md R80), the headers handed over (R18) and the operations the caller will perform. The output
ports are functions of the input ports (R88) and so no field: Machine/Ports.lean. -/

namespace Sys2Proof.Machine

/-- A byte-addressed space (R20) as its (offset, byte) pairs, offsets strictly rising (`Memory.wf`). An
offset that is not listed holds no byte: it does not exist (R21, R22). -/
abbrev Memory := List Host.Cell

/-- A DNS header by its six 16-bit fields (spec/30_encoding.md R42, format DNS_HDR). -/
structure Header where
  id : Word16
  flags : Word16
  qdcount : Word16
  ancount : Word16
  nscount : Word16
  arcount : Word16
deriving DecidableEq, Repr

/-- The input ports (R80), for any widths `lenW` of `req_len_i` and `rcodeW` of `rcode_i` (R93). -/
structure PortsIn (lenW rcodeW : Nat) where
  /-- `req_i`: the first six bytes of the request, offset 0 in bits 47:40 (R81) -/
  reqI : BitVec 48
  /-- `req_len_i`: the length of the request, saturated (R82) -/
  reqLenI : BitVec lenW
  /-- `rcode_i`: the response code (R83) -/
  rcodeI : BitVec rcodeW
deriving DecidableEq, Repr

/-- The output ports (R80). -/
structure PortsOut where
  /-- `err_o` (R86) -/
  errO : Bool
  /-- `hdr_o`: the header, offset 0 in bits 95:88 (R85) -/
  hdrO : BitVec 96
deriving DecidableEq, Repr

/-- The operands and results between the caller and the block. -/
structure State where
  /-- address space REQ: the request of the operation last presented (R21) -/
  req : Memory
  /-- address space OUT: the header that operation produced; empty where none exists (R22, R16) -/
  out : Memory
  /-- the input tuple the caller holds (R89), at this hardware's widths -/
  ports : PortsIn Config.lenW Config.rcodeW
  /-- the headers handed over to the caller, oldest first (R18) -/
  headers : List Header
  /-- the operations the caller will perform, in order (R12; log entry 1) -/
  todo : List Instr
deriving DecidableEq, Repr

/-- What ends an operation without a result. -/
inductive Fault where
  /-- Raised by both forms of ENCODE_HEADER when the request has fewer than six bytes, here `length` of
  them (R100, R101). Safe: nothing can be claimed of a header that does not exist (log entry 4). -/
  | undersizedRequest (length : Nat)
deriving DecidableEq, Repr

/-- Why a step performs no operation. -/
inductive Refusal where
  /-- An operation without a meaning; exec has none such. Safe. -/
  | notModelled (mnemonic : String)
  /-- Answered by `step`, never by an operation: the caller has presented none, and a step is one
  operation (R9, R12; log entry 16). Safe: the machine stops where nothing happens. -/
  | noOperation
deriving DecidableEq, Repr

/-- Right after power is good (spec/70_reset_and_hazards.md R120 to R122): nothing is pending, no header
exists, the caller has presented nothing. The levels of the input ports are the caller's; the model
names zero for them (log entry 5). -/
def State.reset : State :=
  { req := [], out := [], ports := ⟨0, 0, 0⟩, headers := [], todo := [] }

end Sys2Proof.Machine
end

