-- ==== Sys2Proof/Machine/Flags.lean ====
section
/-! DEFINITION. Flags: the DNS flags word, which is data; the machine has no status flags (spec/10_state.md R13).
Its assembly is R45 and R62, its fields are the table of R43 (spec/30_encoding.md). -/

namespace Sys2Proof.Machine

/-- `rc4 = rc[3:0]`, equal to `rc mod 16` (R45, R67). -/
def rc4 (rc : Nat) : BitVec 4 := BitVec.ofNat 4 rc

/-- `0x8000 | zext_16(rc4)` (R45, R62). -/
def flagsWord (rc : Nat) : Word16 := 0x8000#16 ||| (rc4 rc).setWidth 16

/-- QR, bit 15 (R43). -/
def flagQR (w : Word16) : BitVec 1 := w.extractLsb' 15 1

/-- Opcode, bits 14:11 (R43, position by K1: log entry 14). -/
def flagOpcode (w : Word16) : BitVec 4 := w.extractLsb' 11 4

/-- AA, bit 10 (R43, K1). -/
def flagAA (w : Word16) : BitVec 1 := w.extractLsb' 10 1

/-- TC, bit 9 (R43, K1). -/
def flagTC (w : Word16) : BitVec 1 := w.extractLsb' 9 1

/-- RD, bit 8 (R43, K1). -/
def flagRD (w : Word16) : BitVec 1 := w.extractLsb' 8 1

/-- RA, bit 7 (R43, K1). -/
def flagRA (w : Word16) : BitVec 1 := w.extractLsb' 7 1

/-- Z, bits 6:4 (R43, K1). -/
def flagZ (w : Word16) : BitVec 3 := w.extractLsb' 4 3

/-- RCODE, bits 3:0 (R43). -/
def flagRcode (w : Word16) : BitVec 4 := w.extractLsb' 0 4

end Sys2Proof.Machine
end

