-- ==== Sys2Proof/Machine/Operands.lean ====
section
/-! DEFINITION. Operands: the operand forms (spec/30_encoding.md R52, R53), the format REQ_HEAD on the port
`req_i` (R41, spec/41_ports.md R81), and how an operand tuple is put on the ports (R82, R83, R91). -/

namespace Sys2Proof.Machine

/-- The response code of the default form (R53, R70). -/
def defaultRc : Nat := 0

/-- Bytes 0 to 5 of the request as `req_i`, offset 0 most significant (R81). A byte the request lacks is
zero here; the block does not look at it (R82; log entry 9). -/
def packReqI (req : List Byte) : BitVec 48 :=
  byteOrZero req 0 ++ byteOrZero req 1 ++ byteOrZero req 2 ++ byteOrZero req 3
    ++ byteOrZero req 4 ++ byteOrZero req 5

/-- The request length on a port of `lenW` bits: saturated, never wrapped (R82). -/
def saturateLen (lenW : Nat) (length : Nat) : BitVec lenW :=
  BitVec.ofNat lenW (min length (2 ^ lenW - 1))

/-- The response code on a port of `rcodeW` bits: high bits dropped (R83). -/
def reduceRcode (rcodeW : Nat) (rc : Nat) : BitVec rcodeW := BitVec.ofNat rcodeW rc

/-- The operand tuple of an operation as the input ports carry it (R91). -/
def presentPorts (lenW rcodeW : Nat) (req : List Byte) (rc : Nat) : PortsIn lenW rcodeW :=
  { reqI := packReqI req
    reqLenI := saturateLen lenW req.length
    rcodeI := reduceRcode rcodeW rc }

end Sys2Proof.Machine
end

