-- ==== Sys2Proof/Machine/Ops.lean ====
section
/-! DEFINITION. Ops: the primitives of rule R7 (spec/00_scope.md) over the two address spaces, the operation
ENCODE_HEADER once for both its forms (spec/40_encode_header.md R60), and its one fault
(spec/60_exceptions.md R100, R106). -/

namespace Sys2Proof.Machine

/-- The canonical form of a memory: offsets strictly rising. -/
abbrev Memory.wf (m : Memory) : Prop := m.Pairwise fun a b => a.1 < b.1

/-- The byte at an offset, `none` where no byte exists (R7, R20). -/
def Memory.read : Memory → Nat → Option Byte
  | [], _ => none
  | (k, b) :: m, a => if k = a then some b else Memory.read m a

/-- Write one byte, keeping the offsets rising. -/
def Memory.write : Memory → Nat → Byte → Memory
  | [], a, v => [(a, v)]
  | (k, b) :: m, a, v =>
    if a < k then (a, v) :: (k, b) :: m
    else if a = k then (a, v) :: m
    else (k, b) :: Memory.write m a v

/-- `MemRead(m + k, 2)`: the two bytes at `k` and `k + 1`, `k` the more significant (R7, R24). -/
def Memory.readWord (m : Memory) (k : Nat) : Option Word16 :=
  match Memory.read m k, Memory.read m (k + 1) with
  | some hi, some lo => some (hi ++ lo)
  | _, _ => none

/-- `MemWrite(m + k, 2, w)`: `w[15:8]` to `k`, `w[7:0]` to `k + 1` (R7, R24). -/
def Memory.writeWord (m : Memory) (k : Nat) (w : Word16) : Memory :=
  Memory.write (Memory.write m k (w.extractLsb' 8 8)) (k + 1) (w.extractLsb' 0 8)

/-- A byte string laid out from offset `k` up. -/
def Memory.ofBytesAt : Nat → List Byte → Memory
  | _, [] => []
  | k, b :: bs => (k, b) :: Memory.ofBytesAt (k + 1) bs

/-- A byte string as an address space: its bytes at offsets 0 .. L-1 (R21). -/
def Memory.ofBytes (bs : List Byte) : Memory := Memory.ofBytesAt 0 bs

/-- A byte of REQ under a short-request policy: where the byte does not exist, none under `fault`, zero
under `zero_fill` (spec/93_implementation_defined.md U1). -/
def reqByte (policy : ShortReqPolicy) (m : Memory) (k : Nat) : Option Byte :=
  match Memory.read m k, policy with
  | some b, _ => some b
  | none, .fault => none
  | none, .zeroFill => some 0

/-- The 16-bit field of REQ at offset `k` under a short-request policy, big-endian (R24). -/
def reqWord (policy : ShortReqPolicy) (m : Memory) (k : Nat) : Option Word16 :=
  match reqByte policy m k, reqByte policy m (k + 1) with
  | some hi, some lo => some (hi ++ lo)
  | _, _ => none

/-- The fields of a header with their offsets in OUT (R23, R42). -/
def Header.fields (h : Header) : List (Nat × Word16) :=
  [(0, h.id), (2, h.flags), (4, h.qdcount), (6, h.ancount), (8, h.nscount), (10, h.arcount)]

/-- Perform a list of two-byte writes, first one first. -/
def Memory.writeWords (m : Memory) (ws : List (Nat × Word16)) : Memory :=
  ws.foldl (fun m p => Memory.writeWord m p.1 p.2) m

/-- The six `MemWrite`s of R60 into a fresh OUT (R18, R22). -/
def Header.store (h : Header) : Memory := Memory.writeWords [] h.fields

/-- The twelve bytes of a header, offset 0 first, each field big-endian (R24, R42). -/
def Header.toBytes (h : Header) : List Byte :=
  h.fields.flatMap fun p => [p.2.extractLsb' 8 8, p.2.extractLsb' 0 8]

/-- A header as the 96-bit vector `hdr`, offset 0 most significant (R6, R42). -/
def Header.toVec (h : Header) : BitVec 96 :=
  h.id ++ h.flags ++ h.qdcount ++ h.ancount ++ h.nscount ++ h.arcount

/-- The header of a response: ID and QDCOUNT as given, the flags word from the response code alone, the
three record counts zero (R61 to R64). -/
def responseHeader (id qd : Word16) (rc : Nat) : Header :=
  { id := id, flags := flagsWord rc, qdcount := qd, ancount := 0, nscount := 0, arcount := 0 }

/-- The caller presents an operand tuple: REQ holds the request, the ports carry the tuple (R89, R91), and
no header of this operation exists yet (R16). -/
def State.present (s : State) (req : List Byte) (rc : Nat) : State :=
  { s with
    req := Memory.ofBytes req
    out := []
    ports := presentPorts Config.lenW Config.rcodeW req rc }

/-- The operation ends with a header: OUT holds its twelve bytes and the caller owns it (R18, R65). -/
def State.produce (s : State) (h : Header) : State :=
  { s with out := Header.store h, headers := s.headers ++ [h] }

/-- Fault entry (R100, R106): the operation ends and has no result. Nothing is saved, no mode changes, no
handler is entered. -/
def raiseUndersized (length : Nat) : Host.Outcome State Fault Refusal :=
  .fault (.undersizedRequest length)

/-- `ENCODE_HEADER(REQ, L, rc)`: the pseudocode of R60. The length is checked before any byte is read
(R105); under `zero_fill` there is no such check (U1). -/
def encodeHeaderOp (policy : ShortReqPolicy) (req : List Byte) (rc : Nat) (s : State) :
    Host.Outcome State Fault Refusal :=
  let s1 := s.present req rc
  if policy = .fault ∧ req.length < Config.reqMinBytes then raiseUndersized req.length
  else
    match reqWord policy s1.req 0, reqWord policy s1.req 4 with
    | some id, some qd => .next (s1.produce (responseHeader id qd rc))
    | _, _ => raiseUndersized req.length

/-- The next operation the caller performs, and the state with it taken from the caller's list (R12). -/
def State.takeOperation (s : State) : Option (Instr × State) :=
  match s.todo with
  | [] => none
  | i :: rest => some (i, { s with todo := rest })

/-- The caller's next operation is `i` (log entry 1). -/
def State.enqueue (s : State) (i : Instr) : State := { s with todo := i :: s.todo }

/-- The caller has no operation to perform. -/
def State.clearTodo (s : State) : State := { s with todo := [] }

end Sys2Proof.Machine
end

