-- ==== Sys2Proof/Machine/Encode.lean ====
section
/-! DEFINITION. Encode: the meanings of the two rows of the operation map (spec/30_encoding.md R47). -/

namespace Sys2Proof.Machine

/-- `ENCODE_HEADER out, req, rc` (R60), with this hardware's short-request policy (D3). -/
def execEncodeHeader (req : List Byte) (rc : Nat) (s : State) : Host.Outcome State Fault Refusal :=
  encodeHeaderOp Config.shortReqPolicy req rc s

/-- `ENCODE_HEADER out, req` (R70): R60 with `rc = 0`. -/
def execEncodeHeaderDefault (req : List Byte) (s : State) : Host.Outcome State Fault Refusal :=
  encodeHeaderOp Config.shortReqPolicy req defaultRc s

end Sys2Proof.Machine
end

