-- ==== Sys2Proof/Machine/Dispatch.lean ====
section
/-! DEFINITION. Dispatch: one arm per row of spec/opcode_table.json. -/

namespace Sys2Proof.Machine

def exec (i : Instr) (s : State) : Host.Outcome State Fault Refusal :=
  match i with
  | .encodeHeader req rc => Sys2Proof.Machine.execEncodeHeader req rc s
  | .encodeHeaderDefault req => Sys2Proof.Machine.execEncodeHeaderDefault req s

end Sys2Proof.Machine
end

