-- ==== Sys2Proof/Machine/Step.lean ====
section
/-! DEFINITION. Step: one step is one whole operation on one operand tuple (spec/00_scope.md R9, D2). -/

namespace Sys2Proof.Machine

/-- Perform the caller's next operation. With none to perform there is no step to take (log entry 16). -/
def step (s : State) : Host.Outcome State Fault Refusal :=
  match s.takeOperation with
  | none => .refused .noOperation
  | some (i, s') => exec i s'

/-- The caller's next operation is the one that a word of spec/opcode_table.json encodes; a word that
encodes none leaves the caller with no operation. The block fetches nothing (R12, R36), so this stands for
the caller choosing its operation (log entry 1). -/
def State.withFetchWord (s : State) (nbits w : Nat) : State :=
  match decodeTableWord nbits w with
  | some i => s.enqueue i
  | none => s.clearTodo

end Sys2Proof.Machine
end

