-- ==== Sys2Proof/Machine/Ports.lean ====
section
/-! DEFINITION. Ports: the block at its ports (spec/41_ports.md R80 to R93): combinational outputs from the present
inputs, for any port widths, under either short-request policy. -/

namespace Sys2Proof.Machine

/-- Request byte `k` on the port (R81): `req_i[47-8k : 40-8k]`. -/
def PortsIn.reqByteAt {lenW rcodeW : Nat} (p : PortsIn lenW rcodeW) (k : Nat) : Byte :=
  p.reqI.extractLsb' (40 - 8 * k) 8

/-- `err_o` (R86): `req_len_i < 6`; tied to 0 under `zero_fill` (U1). -/
def PortsIn.errO {lenW rcodeW : Nat} (policy : ShortReqPolicy) (p : PortsIn lenW rcodeW) : Bool :=
  match policy with
  | .fault => decide (p.reqLenI.toNat < Config.reqMinBytes)
  | .zeroFill => false

/-- A used byte of `req_i`: under `zero_fill` gated by `req_len_i > k` (U1). -/
def PortsIn.usedByte {lenW rcodeW : Nat} (policy : ShortReqPolicy) (p : PortsIn lenW rcodeW) (k : Nat) :
    Byte :=
  match policy with
  | .fault => p.reqByteAt k
  | .zeroFill => if k < p.reqLenI.toNat then p.reqByteAt k else 0

/-- `hdr_o` while `err_o = 0`, the one expression of R92 (16 + 1 + 11 + 4 + 16 + 48 bits). -/
def PortsIn.header {lenW rcodeW : Nat} (policy : ShortReqPolicy) (p : PortsIn lenW rcodeW) : BitVec 96 :=
  (p.usedByte policy 0 ++ p.usedByte policy 1) ++ 1#1 ++ 0#11 ++ p.rcodeI.setWidth 4
    ++ (p.usedByte policy 4 ++ p.usedByte policy 5) ++ 0#48

/-- The output ports at the `n`-th sampling (R88, R89). While `err_o = 1`, `hdr_o` is a free draw (R87). -/
def PortsIn.sample {lenW rcodeW : Nat} (policy : ShortReqPolicy) (n : Nat) (p : PortsIn lenW rcodeW) :
    PortsOut :=
  { errO := p.errO policy
    hdrO := if p.errO policy then Config.hdrUnspecified n else p.header policy }

/-- The outputs for a sequence of input tuples presented one after another (R89), the first of them sampled
as number `n`. -/
def sampleAll {lenW rcodeW : Nat} (policy : ShortReqPolicy) : Nat → List (PortsIn lenW rcodeW) → List PortsOut
  | _, [] => []
  | n, p :: ps => p.sample policy n :: sampleAll policy (n + 1) ps

/-- The output ports of a state: a function of its input ports (R88). -/
def State.outputs (n : Nat) (s : State) : PortsOut := s.ports.sample Config.shortReqPolicy n

/-- The request a tuple stands for (R91): `req_len_i` bytes, the first six of them from `req_i`. Bytes from
offset 6 up have no port (R81) and are zero here; the block never reads them (R21). -/
def PortsIn.request {lenW rcodeW : Nat} (p : PortsIn lenW rcodeW) : List Byte :=
  (((List.range Config.reqMinBytes).map p.reqByteAt)
    ++ List.replicate (p.reqLenI.toNat - Config.reqMinBytes) 0).take p.reqLenI.toNat

/-- The function-level operation of a tuple (R91). -/
def PortsIn.operation {lenW rcodeW : Nat} (p : PortsIn lenW rcodeW) : Instr :=
  .encodeHeader p.request p.rcodeI.toNat

end Sys2Proof.Machine
end

