-- ==== Sys2Proof/Machine/Resume.lean ====
section
/-! DEFINITION. Resume: the block after a fault. `step` ends a run at `UndersizedRequest`, as the spec asks of a model
(spec/60_exceptions.md R107, spec/95_test_vectors.md program 4); the hardware itself goes on to the next
operation "as if the fault had never happened" (R108), and that is `stepOn`. -/

namespace Sys2Proof.Machine

/-- What a fault leaves (R106): the tuple still stands on the ports (so `err_o = 1`), the request is
unchanged, no header exists, everything else is as before. -/
def State.afterFault (s : State) (i : Instr) : State := s.present i.req i.rc

/-- A step of the block as a caller sees it that goes on after a fault (R108). -/
def stepOn (s : State) : Host.Outcome State Fault Refusal :=
  match s.takeOperation with
  | none => .refused .noOperation
  | some (i, s') =>
    match exec i s' with
    | .fault (.undersizedRequest _) => .next (s'.afterFault i)
    | o => o

/-- The machine that goes on after a fault, so that `Host.Core.run` runs it (R108, R130). -/
def resumeCore : Host.Core :=
  { State := State
    Fault := Fault
    Refusal := Refusal
    step := stepOn
    reset := State.reset }

end Sys2Proof.Machine
end

