-- ==== Sys2Proof/Safety.lean ====
section
/-! DEFINITION. Safety: what an operation that has gone wrong is (spec/60_exceptions.md R107), the caller's duty that
rules it out (spec/70_reset_and_hazards.md R123), and the invariant of the machine. -/

namespace Sys2Proof.Machine

/-- The next step goes wrong: its operation faults (R107). -/
def State.GoesWrong (s : State) : Prop := ∃ n, step s = .fault (.undersizedRequest n)

/-- The caller keeps its duty in every operation it will perform (R123). -/
def State.DutyKept (s : State) : Prop := ∀ i ∈ s.todo, i.wellFormed = true

/-- From `s` to `t` an operation has given the caller a header of exactly these bytes: they are what OUT
holds, no other byte exists there, and the header joins the ones handed over (R18, R22, R65). -/
def State.Delivers (s t : State) (bytes : List Byte) : Prop :=
  (∀ k, Memory.read t.out k = bytes[k]?) ∧ ∃ h, t.headers = s.headers ++ [h] ∧ h.toBytes = bytes

/-- Two outcomes with the same result: the same header handed over, or the same fault. -/
def SameResult : Host.Outcome State Fault Refusal → Host.Outcome State Fault Refusal → Prop
  | .next t, .next u => t.out = u.out ∧ t.headers = u.headers
  | .fault f, .fault g => f = g
  | _, _ => False

/-- A header that fits the result format RESP_HDR (spec/30_encoding.md R44). -/
def Header.IsResponse (h : Header) : Prop := rowEncodeHeader.accepts h.toVec = true

/-- OUT and the output ports show the header last handed over, or OUT holds none (R18, R22, R91). -/
def State.OutAgrees (s : State) : Prop :=
  s.out = [] ∨ ∃ h, s.headers.getLast? = some h ∧ s.out = Header.store h ∧
    ∀ n, s.outputs n = { errO := false, hdrO := h.toVec }

/-- The invariant: both address spaces are in canonical form, every header the caller was given is a
RESP_HDR, and OUT and the ports agree with the last one. -/
structure State.Inv (s : State) : Prop where
  reqWf : Memory.wf s.req
  outWf : Memory.wf s.out
  responses : ∀ h ∈ s.headers, h.IsResponse
  outAgrees : s.OutAgrees

end Sys2Proof.Machine
end

