-- ==== Sys2Proof/Certificates/Slice0/Obligations.lean ====
section
/-! DEFINITION. Obligations: the statements for the provers. Each docstring names the rule of spec/ it rests on. -/

open Sys2Proof Sys2Proof.Machine

/-! ## The operation (spec/40_encode_header.md) -/

/-- R71: the header of `ENCODE_HEADER out, req, rc` for `L ≥ 6`, as a byte string and as a vector. -/
def Obligations.EncodeHeaderClosedForm : Prop :=
  ∀ (b0 b1 b2 b3 b4 b5 : Byte) (rest : List Byte) (rc : Nat) (s : State),
    ∃ t h, exec (.encodeHeader (b0 :: b1 :: b2 :: b3 :: b4 :: b5 :: rest) rc) s = .next t ∧
      s.Delivers t [b0, b1, 0x80, BitVec.ofNat 8 (rc % 16), b4, b5, 0, 0, 0, 0, 0, 0] ∧
      t.headers = s.headers ++ [h] ∧
      h.toVec = b0 ++ b1 ++ 0x80#8 ++ 0#4 ++ BitVec.ofNat 4 rc ++ b4 ++ b5 ++ 0#48

/-- R70: the default form is R60 with `rc = 0`, and its flags bytes are `80 00`. -/
def Obligations.DefaultFormIsCodeZero : Prop :=
  (∀ (req : List Byte) (s : State), exec (.encodeHeaderDefault req) s = exec (.encodeHeader req 0) s) ∧
  ∀ (b0 b1 b2 b3 b4 b5 : Byte) (rest : List Byte) (s : State),
    ∃ t, exec (.encodeHeaderDefault (b0 :: b1 :: b2 :: b3 :: b4 :: b5 :: rest)) s = .next t ∧
      s.Delivers t [b0, b1, 0x80, 0x00, b4, b5, 0, 0, 0, 0, 0, 0]

/-- R61: output bytes 0 and 1 are request bytes 0 and 1, for both forms. -/
def Obligations.IdCopied : Prop :=
  ∀ (i : Instr) (s : State), 6 ≤ i.req.length →
    ∃ t, exec i s = .next t ∧ Memory.read t.out 0 = i.req[0]? ∧ Memory.read t.out 1 = i.req[1]?

/-- R62, R43: the flags word, as two bytes, as a big-endian word and field by field, for both forms. R62 says
that Opcode, AA, TC, RD, RA and Z are 0; WHERE these six fields stand is not stated by R62: their positions
are general knowledge (R43, K1), taken by the model as PRESUMED (log entry 14). -/
def Obligations.FlagsWordWritten : Prop :=
  ∀ (i : Instr) (s : State), 6 ≤ i.req.length →
    ∃ t w, exec i s = .next t ∧ Memory.read t.out 2 = some 0x80 ∧
      Memory.read t.out 3 = some ((BitVec.ofNat 4 i.rc).setWidth 8) ∧
      Memory.readWord t.out 2 = some w ∧ w = 0x8000 ||| BitVec.ofNat 16 (i.rc &&& 0xF) ∧
      flagQR w = 1 ∧ flagOpcode w = 0 ∧ flagAA w = 0 ∧ flagTC w = 0 ∧ flagRD w = 0 ∧ flagRA w = 0 ∧
      flagZ w = 0 ∧ flagRcode w = BitVec.ofNat 4 i.rc

/-- R63: output bytes 4 and 5 are request bytes 4 and 5, for both forms. -/
def Obligations.QdcountCopied : Prop :=
  ∀ (i : Instr) (s : State), 6 ≤ i.req.length →
    ∃ t, exec i s = .next t ∧ Memory.read t.out 4 = i.req[4]? ∧ Memory.read t.out 5 = i.req[5]?

/-- R64: output bytes 6 to 11 are zero, for both forms. -/
def Obligations.RecordCountsZero : Prop :=
  ∀ (i : Instr) (s : State), 6 ≤ i.req.length →
    ∃ t, exec i s = .next t ∧ ∀ k, 6 ≤ k → k < 12 → Memory.read t.out k = some 0

/-- R65: an operation ends with exactly twelve bytes in OUT, handed to the caller, or with the fault and so
without a result; there is no third outcome. -/
def Obligations.TwelveBytesOrFault : Prop :=
  ∀ (i : Instr) (s : State),
    (∃ t bytes, exec i s = .next t ∧ s.Delivers t bytes ∧ bytes.length = 12 ∧
      ∀ k, (Memory.read t.out k).isSome = true ↔ k < 12) ∨
    exec i s = .fault (.undersizedRequest i.req.length)

/-- R66: an operation succeeds exactly when its request has six bytes or more. -/
def Obligations.SucceedsExactlyFromSixBytes : Prop :=
  ∀ (i : Instr) (s : State), (∃ t, exec i s = .next t) ↔ 6 ≤ i.req.length

/-- R67: only `rc[3:0]` is used. -/
def Obligations.ResponseCodeTruncated : Prop :=
  ∀ (req : List Byte) (rc : Nat) (s : State),
    SameResult (exec (.encodeHeader req rc) s) (exec (.encodeHeader req (rc % 16)) s) ∧
    ∀ rc', rc' % 16 = rc % 16 →
      SameResult (exec (.encodeHeader req rc) s) (exec (.encodeHeader req rc') s)

/-- R102: a response code above 15 is no fault; the operation succeeds with `rc[3:0]` and `err_o` is 0. -/
def Obligations.OutOfRangeCodeIsNoFault : Prop :=
  ∀ (req : List Byte) (rc : Nat) (s : State), 6 ≤ req.length → 15 < rc →
    ∃ t, exec (.encodeHeader req rc) s = .next t ∧
      Memory.read t.out 3 = some (BitVec.ofNat 8 (rc % 16)) ∧ ∀ n, (t.outputs n).errO = false

/-- R77(a): the result depends on request bytes 0, 1, 4, 5 and on `rc mod 16` alone, for both forms. -/
def Obligations.DependsOnUsedBitsOnly : Prop :=
  ∀ (i j : Instr) (s : State), 6 ≤ i.req.length → 6 ≤ j.req.length →
    i.req[0]? = j.req[0]? → i.req[1]? = j.req[1]? → i.req[4]? = j.req[4]? → i.req[5]? = j.req[5]? →
    i.rc % 16 = j.rc % 16 →
    ∃ t u, exec i s = .next t ∧ exec j s = .next u ∧ t.out = u.out ∧ t.headers = u.headers

/-- R77(b), R44: every result fits the mask and match of RESP_HDR. -/
def Obligations.ResultFitsRespHdr : Prop :=
  ∀ (i : Instr) (s : State), 6 ≤ i.req.length →
    ∃ t h, exec i s = .next t ∧ t.headers = s.headers ++ [h] ∧
      h.toVec &&& 0x0000FFF00000FFFFFFFFFFFF = 0x000080000000000000000000 ∧
      h.toVec.extractLsb' 68 12 = 0x800 ∧ h.toVec.extractLsb' 0 48 = 0

/-- R77(c): equal headers come from equal used bits. -/
def Obligations.ResultInjective : Prop :=
  ∀ (i j : Instr) (s t u : State), exec i s = .next t → exec j s = .next u → t.out = u.out →
    i.req[0]? = j.req[0]? ∧ i.req[1]? = j.req[1]? ∧ i.req[4]? = j.req[4]? ∧ i.req[5]? = j.req[5]? ∧
    i.rc % 16 = j.rc % 16

/-- R77(d): a header used as a request gives the header that the first request gives. -/
def Obligations.ReEncoding : Prop :=
  ∀ (req : List Byte) (c c' : Nat) (s : State), 6 ≤ req.length →
    ∃ t h u v, exec (.encodeHeader req c) s = .next t ∧ t.headers = s.headers ++ [h] ∧
      exec (.encodeHeader h.toBytes c') t = .next u ∧ exec (.encodeHeader req c') t = .next v ∧
      u.out = v.out ∧ u.headers = v.headers ∧ (c' = c → u.out = t.out)

/-- R77(e), R33: two operations give the same two headers in either order. -/
def Obligations.OperationsCommute : Prop :=
  ∀ (i j : Instr) (s : State), 6 ≤ i.req.length → 6 ≤ j.req.length →
    ∃ hi hj ti tij tj tji, exec i s = .next ti ∧ exec j ti = .next tij ∧
      exec j s = .next tj ∧ exec i tj = .next tji ∧
      tij.headers = s.headers ++ [hi, hj] ∧ tji.headers = s.headers ++ [hj, hi] ∧
      ti.out = tji.out ∧ tj.out = tij.out

/-- R10, R76: the result of an operation is a function of its operands alone; no state the machine has been
left in, by operations or faults before, changes it. -/
def Obligations.ResultIsFunctionOfOperands : Prop :=
  ∀ i : Instr,
    (∃ h : Header, ∀ s : State, ∃ t, exec i s = .next t ∧ t.out = Header.store h ∧
      t.headers = s.headers ++ [h]) ∨
    (∀ s : State, exec i s = .fault (.undersizedRequest i.req.length))

/-- R17, R18, R21, R22: what both forms leave. REQ holds the request as presented, at every offset; OUT has
no byte beyond the twelve; the ports carry the operands; the caller's earlier headers and its list of
operations are unchanged, and one header is added. The clause on the ports is R91 with R82 and R83, but the
bits of `req_i` that the block ignores, which R81 lets an integrator tie to anything, have the levels the
model chooses (log entry 9, unsafe for that clause); the list of operations is the model's (log entry 1), and
so is the list that keeps the headers (log entry 7). -/
def Obligations.OperationFrame : Prop :=
  ∀ (i : Instr) (s t : State), exec i s = .next t →
    (∀ k, Memory.read t.req k = i.req[k]?) ∧ (∀ k, 12 ≤ k → Memory.read t.out k = none) ∧
    t.ports = presentPorts 16 8 i.req i.rc ∧ t.todo = s.todo ∧
    t.headers.length = s.headers.length + 1 ∧
    ∀ k, k < s.headers.length → t.headers[k]? = s.headers[k]?

/-- R45: the flags word from the response code. -/
def Obligations.FlagsWordIsSum : Prop :=
  ∀ rc : Nat, flagsWord rc = 0x8000 ||| (BitVec.ofNat 4 rc).setWidth 16 ∧
    (flagsWord rc).toNat = 0x8000 + rc % 16 ∧ (flagsWord rc).extractLsb' 8 8 = 0x80 ∧
    (flagsWord rc).extractLsb' 0 8 = (BitVec.ofNat 4 rc).setWidth 8

/-- R6: byte `k` of a header is bits `95-8k : 88-8k` of its vector. -/
def Obligations.HeaderVectorPacking : Prop :=
  ∀ (h : Header) (k : Nat), k < 12 → h.toBytes[k]? = some (h.toVec.extractLsb' (88 - 8 * k) 8)

/-- R28, U11: the six writes of an operation give the same OUT in every order. -/
def Obligations.WriteOrderUnobservable : Prop :=
  ∀ (h : Header) (ws : List (Nat × Word16)), ws.Perm h.fields →
    Memory.writeWords [] ws = Header.store h

/-! ## The fault (spec/60_exceptions.md) -/

/-- R100, R101: the fault is raised exactly when `L < 6`, by either form, and carries `L`. -/
def Obligations.UndersizedRaisedExactly : Prop :=
  ∀ (i : Instr) (s : State),
    ((∃ f, exec i s = .fault f) ↔ i.req.length < 6) ∧
    (i.req.length < 6 → exec i s = .fault (.undersizedRequest i.req.length))

/-- R105: when `L < 6` neither the response code nor any request byte plays a part. -/
def Obligations.LengthCheckComesFirst : Prop :=
  ∀ (i j : Instr) (s s' : State), i.req.length < 6 → j.req.length = i.req.length →
    exec i s = .fault (.undersizedRequest i.req.length) ∧ exec j s' = exec i s

/-- R106, R108: a fault leaves no header, the request as presented and `err_o = 1`; the caller's earlier headers
and its other operations are unchanged; and from there the block goes on as if the fault had never happened,
with the next operation or, where the faulting one was the last, with none. The block that goes on is the
model's `stepOn` (log entry 4), and the caller's lists are log entries 1 and 7. -/
def Obligations.FaultLeavesNoTrace : Prop :=
  ∀ (i : Instr) (rest : List Instr) (s : State), s.todo = i :: rest → i.req.length < 6 →
    ∃ t, stepOn s = .next t ∧ t.out = [] ∧ t.headers = s.headers ∧ t.todo = rest ∧
      (∀ k, Memory.read t.req k = i.req[k]?) ∧ (∀ n, (t.outputs n).errO = true) ∧
      stepOn t = stepOn { s with todo := rest }

/-- R107, R123: the machine goes wrong exactly when the caller breaks its duty in the next operation. -/
def Obligations.GoesWrongExactlyOnBrokenDuty : Prop :=
  ∀ s : State, s.GoesWrong ↔ ∃ i rest, s.todo = i :: rest ∧ i.req.length < 6

/-- U1: under `zero_fill` (not this hardware's policy) every operation gives a header, a missing byte read
as zero. At the ports the same header stands on `hdr_o` with `err_o = 0`: for every tuple of any widths and
every request of its length that agrees with `req_i` in the bytes it has, whatever the other bits of `req_i`
are, and for every operation as it is presented at the ports. From six bytes up the two policies agree. -/
def Obligations.ZeroFillPolicy : Prop :=
  ∀ (req : List Byte) (rc : Nat) (s : State),
    (∃ t h, encodeHeaderOp .zeroFill req rc s = .next t ∧
      s.Delivers t [req.getD 0 0, req.getD 1 0, 0x80, BitVec.ofNat 8 (rc % 16), req.getD 4 0, req.getD 5 0,
        0, 0, 0, 0, 0, 0] ∧
      t.headers = s.headers ++ [h] ∧
      (∀ (lenW rcodeW n : Nat) (p : PortsIn lenW rcodeW),
        req.length = p.reqLenI.toNat →
        (∀ k, k < 6 → k < req.length → req[k]? = some (p.reqI.extractLsb' (40 - 8 * k) 8)) →
        p.rcodeI.toNat = rc →
        p.sample .zeroFill n = { errO := false, hdrO := h.toVec }) ∧
      (∀ lenW rcodeW n : Nat, 3 ≤ lenW → 4 ≤ rcodeW →
        (presentPorts lenW rcodeW req rc).sample .zeroFill n = { errO := false, hdrO := h.toVec })) ∧
    (6 ≤ req.length → encodeHeaderOp .zeroFill req rc s = encodeHeaderOp .fault req rc s)

/-! ## The ports (spec/41_ports.md) -/

/-- R92: the outputs as one expression of the inputs. -/
def Obligations.PortExpression : Prop :=
  ∀ (lenW rcodeW n : Nat) (p : PortsIn lenW rcodeW),
    ((p.sample .fault n).errO = true ↔ p.reqLenI.toNat < 6) ∧
    ((p.sample .fault n).errO = false → (p.sample .fault n).hdrO =
      p.reqI.extractLsb' 32 16 ++ 1#1 ++ 0#11 ++ p.rcodeI.extractLsb' 0 4 ++ p.reqI.extractLsb' 0 16 ++ 0#48)

/-- R86: `err_o` follows `req_len_i` alone. -/
def Obligations.ErrFollowsLengthAlone : Prop :=
  ∀ (lenW rcodeW n m : Nat) (p q : PortsIn lenW rcodeW),
    ((p.sample .fault n).errO = true ↔ p.reqLenI.toNat < 6) ∧
    (p.reqLenI = q.reqLenI → (p.sample .fault n).errO = (q.sample .fault m).errO)

/-- R87: while `err_o = 1`, `hdr_o` is the free draw of the sampling (the model's form of "unspecified",
log entry 8); nothing is known of its value. -/
def Obligations.HdrUnspecifiedUnderErr : Prop :=
  ∀ (lenW rcodeW n : Nat) (p : PortsIn lenW rcodeW), p.reqLenI.toNat < 6 →
    p.sample .fault n = { errO := true, hdrO := Config.hdrUnspecified n }

/-- R91: the ports and the function level agree, for every tuple, and every operation can be presented at the
ports. The default form is the operation with code 0 (`DefaultFormIsCodeZero`), so it is presented with
`rcode_i` at zero (R84). -/
def Obligations.PortsRefineOperation : Prop :=
  ∀ (lenW rcodeW n : Nat) (s : State), 3 ≤ lenW → 4 ≤ rcodeW →
    (∀ (p : PortsIn lenW rcodeW) (req : List Byte),
      req.length = p.reqLenI.toNat →
      (∀ k, k < 6 → k < req.length → req[k]? = some (p.reqI.extractLsb' (40 - 8 * k) 8)) →
      (req.length < 6 →
        exec (.encodeHeader req p.rcodeI.toNat) s = .fault (.undersizedRequest req.length) ∧
        (p.sample .fault n).errO = true) ∧
      (6 ≤ req.length → ∃ t, exec (.encodeHeader req p.rcodeI.toNat) s = .next t ∧
        (p.sample .fault n).errO = false ∧
        ∀ k, k < 12 → Memory.read t.out k = some ((p.sample .fault n).hdrO.extractLsb' (88 - 8 * k) 8))) ∧
    (∀ (req : List Byte) (rc : Nat), 6 ≤ req.length →
      ∃ t, exec (.encodeHeader req rc) s = .next t ∧
        ((presentPorts lenW rcodeW req rc).sample .fault n).errO = false ∧
        ∀ k, k < 12 → Memory.read t.out k =
          some (((presentPorts lenW rcodeW req rc).sample .fault n).hdrO.extractLsb' (88 - 8 * k) 8)) ∧
    (∀ (req : List Byte) (rc : Nat) (reqI : BitVec 48) (rcodeI : BitVec rcodeW), req.length < 6 →
      exec (.encodeHeader req rc) s = .fault (.undersizedRequest req.length) ∧
      ((PortsIn.mk reqI (BitVec.ofNat lenW req.length) rcodeI).sample .fault n).errO = true)

/-- R91 with `PortsIn.operation`: the operation that a tuple stands for has the tuple's outcome. The zeros it has
from offset 6 up, where no port carries a byte, are the model's choice (log entry 9). -/
def Obligations.TupleOperationOutcome : Prop :=
  ∀ (p : PortsIn Config.lenW Config.rcodeW) (n : Nat) (s : State),
    ((p.sample .fault n).errO = true → exec p.operation s = .fault (.undersizedRequest p.reqLenI.toNat)) ∧
    ((p.sample .fault n).errO = false → ∃ t h, exec p.operation s = .next t ∧
      t.headers = s.headers ++ [h] ∧ h.toVec = (p.sample .fault n).hdrO)

/-- R93: the port widths change only the range of values the ports admit. Where the length is below six, R87
leaves `hdr_o` unspecified: the two settings show the same value here only because the model's free value is
one for each sampling number, which stands for one sampling of one instance (log entry 8, the model's
choice). -/
def Obligations.WidthsChangeNoOutput : Prop :=
  ∀ (lenW rcodeW lenW' rcodeW' n : Nat) (p : PortsIn lenW rcodeW) (q : PortsIn lenW' rcodeW'),
    p.reqI = q.reqI → p.reqLenI.toNat = q.reqLenI.toNat → p.rcodeI.toNat = q.rcodeI.toNat →
    p.sample .fault n = q.sample .fault n

/-- R88, R89: in a sequence of tuples `err_o`, and `hdr_o` while `err_o = 0`, are functions of the tuple sampled;
what came before, faults among it, does not matter. For a tuple with `req_len_i < 6`, R87 leaves `hdr_o`
unspecified: it is the free value of that sampling, the model's choice of form (log entry 8), which depends on
the sampling's number and of which nothing is known. -/
def Obligations.PortsHaveNoMemory : Prop :=
  ∀ (lenW rcodeW n k : Nat) (ps : List (PortsIn lenW rcodeW)),
    (sampleAll .fault n ps)[k]? = ps[k]?.map fun p => p.sample .fault (n + k)

/-! ## Encoding (spec/30_encoding.md, spec/opcode_table.json) -/

/-- Words written out from R44 and the examples of spec/95_test_vectors.md decode to their operations. The
zeros in request bytes 2 and 3 and the length six are the model's choice, since R54 allows any value there (log
entry 2), and so is the default form for code 0, since R47 selects no form (log entry 3). -/
def Obligations.WordsDecode : Prop :=
  decodeTableWord 96 0xABCD80030001000000000000
    = some (.encodeHeader [0xAB, 0xCD, 0, 0, 0x00, 0x01] 3) ∧
  decodeTableWord 96 0xFFFF800FFFFF000000000000
    = some (.encodeHeader [0xFF, 0xFF, 0, 0, 0xFF, 0xFF] 15) ∧
  decodeTableWord 96 0xABCD80000001000000000000
    = some (.encodeHeaderDefault [0xAB, 0xCD, 0, 0, 0x00, 0x01]) ∧
  decodeTableWord 96 0xABCD01000001000000000000 = none

/-- Decoding an encoded operation gives it back with its ignored bits (R50) cleared, and gives it back
itself where it has none set. That the decoder clears them, where R54 allows any value, and takes the default
form for code 0, where R47 selects none, is the model's choice (log entries 2 and 3). -/
def Obligations.DecodeEncode : Prop :=
  ∀ (i : Instr) (rest : List Byte), i.wellFormed = true →
    decode (encode i ++ rest) = .ok i.canonical rest ∧
    encode i.canonical = encode i ∧ i.canonical.canonical = i.canonical

/-- R54, R70: the operands the encoding holds come back at every value: any ID, any QDCOUNT, any nonzero
four-bit code in the written form, code 0 in the default form. The zeros in request bytes 2 and 3, the length
six and the form by the code are the model's choice (log entries 2 and 3). -/
def Obligations.DecodeEncodeOperands : Prop :=
  ∀ (b0 b1 b4 b5 : Byte) (r : BitVec 4) (rest : List Byte),
    (r ≠ 0 → decode (encode (.encodeHeader [b0, b1, 0, 0, b4, b5] r.toNat) ++ rest)
      = .ok (.encodeHeader [b0, b1, 0, 0, b4, b5] r.toNat) rest) ∧
    decode (encode (.encodeHeaderDefault [b0, b1, 0, 0, b4, b5]) ++ rest)
      = .ok (.encodeHeaderDefault [b0, b1, 0, 0, b4, b5]) rest

/-- Whatever decodes is the encoding of what it decodes to, and that operation is well-formed. That it has no
ignored bit set and a request of six bytes, where R54 allows any value in the ignored positions, and that
code 0 comes in the default form, is the decoder's choice, not a rule's (log entries 2 and 3). -/
def Obligations.EncodeDecode : Prop :=
  ∀ (bytes rest : List Byte) (i : Instr), decode bytes = .ok i rest →
    bytes = encode i ++ rest ∧ i.wellFormed = true ∧ i.canonical = i

/-- R44, R47: the words that decode are exactly those the mask and match of the table accept, and the default
form is decoded exactly from those of its own row. That its row is tried first is the model's choice (log
entry 3). -/
def Obligations.DecodeFollowsTable : Prop :=
  ∀ v : BitVec 96,
    ((∃ i rest, decode (vecBytes v) = .ok i rest) ↔
      v &&& 0x0000FFF00000FFFFFFFFFFFF = 0x000080000000000000000000) ∧
    ((∃ req rest, decode (vecBytes v) = .ok (.encodeHeaderDefault req) rest) ↔
      v &&& 0x0000FFFF0000FFFFFFFFFFFF = 0x000080000000000000000000)

/-- R40, R47: the encoding of an operation is the header it produces, for both forms. -/
def Obligations.EncodingIsTheResult : Prop :=
  ∀ (i : Instr) (s : State), 6 ≤ i.req.length →
    ∃ t, exec i s = .next t ∧ s.Delivers t (encode i)

/-- R54: the headers the block can produce are exactly the values RESP_HDR admits; each comes from the
operands named there, with anything in the ignored positions. -/
def Obligations.ProducibleHeaders : Prop :=
  (∀ v : BitVec 96, v &&& 0x0000FFF00000FFFFFFFFFFFF = 0x000080000000000000000000 ↔
    ∃ i s t h, exec i s = .next t ∧ t.headers = s.headers ++ [h] ∧ h.toVec = v) ∧
  ∀ (v : BitVec 96) (b2 b3 : Byte) (rest : List Byte) (rc : Nat) (s : State),
    v &&& 0x0000FFF00000FFFFFFFFFFFF = 0x000080000000000000000000 →
    rc % 16 = (v.extractLsb' 64 4).toNat →
    ∃ t h, exec (.encodeHeader (v.extractLsb' 88 8 :: v.extractLsb' 80 8 :: b2 :: b3 ::
        v.extractLsb' 56 8 :: v.extractLsb' 48 8 :: rest) rc) s = .next t ∧
      t.headers = s.headers ++ [h] ∧ h.toVec = v

/-! ## Steps, runs and the invariant -/

/-- A step performs the caller's next operation, taken from its list (R9, R12); with none there is no step
(the model's choice, log entry 16). -/
def Obligations.StepPerformsNextOperation : Prop :=
  ∀ s : State,
    (∀ i rest, s.todo = i :: rest → step s = exec i { s with todo := rest }) ∧
    (s.todo = [] → step s = .refused .noOperation)

/-- A word of the opcode table that decodes is performed by the very next step. How an operation is placed, and
how a word of fewer than 96 bits is read, are the model's choice (log entries 1 and 19). -/
def Obligations.StepRunsDecodedWord : Prop :=
  ∀ (s : State) (nbits w : Nat) (i : Instr), decodeTableWord nbits w = some i →
    step (s.withFetchWord nbits w) = exec i s

/-- R16, R121: at reset no header exists and nothing is pending; `err_o` follows the input ports, at the
levels log entry 5 names. -/
def Obligations.ResetHoldsNothing : Prop :=
  (∀ k, Memory.read State.reset.out k = none) ∧ State.reset.headers = [] ∧ State.reset.todo = [] ∧
  ∀ n, (State.reset.outputs n).errO = decide (State.reset.ports.reqLenI.toNat < 6)

/-- The invariant holds at reset. -/
def Obligations.ResetInv : Prop := State.reset.Inv

/-- Every step keeps the invariant: the address spaces in canonical form, every header handed over a
RESP_HDR (R44), OUT and the ports in agreement with the last header (R18, R22, R91). -/
def Obligations.StepKeepsInv : Prop :=
  ∀ s t : State, s.Inv → step s = .next t → t.Inv

/-- The block that goes on after faults (the model's `stepOn`, log entry 4) keeps the invariant too. -/
def Obligations.StepOnKeepsInv : Prop :=
  ∀ s t : State, s.Inv → stepOn s = .next t → t.Inv

/-- R66, R123, R130: where the caller keeps its duty, all its operations complete, and it is handed exactly
their headers, in order. The list of operations and the list of headers are the model's (log entries 1
and 7). -/
def Obligations.DutyKeptRunCompletes : Prop :=
  ∀ s : State, s.DutyKept →
    ∃ t : State, Sys2Proof.core.run s.todo.length s = .next t ∧ t.todo = [] ∧
      t.headers.map Header.toBytes = s.headers.map Header.toBytes ++ s.todo.map encode

/-- R108, R130: the block that goes on performs every operation, whatever faults among them, and hands over
exactly the headers of those that did not fault. The block that goes on is the model's `stepOn` (log entry 4);
the list of operations and the list of headers are the model's too (log entries 1 and 7). -/
def Obligations.EveryOperationPerformed : Prop :=
  ∀ s : State,
    ∃ t : State, resumeCore.run s.todo.length s = .next t ∧ t.todo = [] ∧
      t.headers.map Header.toBytes =
        s.headers.map Header.toBytes ++ (s.todo.filter fun i => i.wellFormed).map encode
end

