-- ==== Sys2Proof/Laws/Config.lean ====
section
/-! SUPPORT. Laws/Config: the fixed constants of rule R5 as numerals. -/

namespace Sys2Proof

@[simp] theorem Config.hdrBytes_eq : Config.hdrBytes = 12 := rfl
@[simp] theorem Config.reqMinBytes_eq : Config.reqMinBytes = 6 := rfl
@[simp] theorem Config.rcodeBits_eq : Config.rcodeBits = 4 := rfl

end Sys2Proof
end

