-- ==== Sys2Proof/Laws/Memory.lean ====
section
/-! SUPPORT. Laws/Memory: reading after writing, and that every memory operation keeps the canonical form. -/

namespace Sys2Proof.Machine

@[simp] theorem Memory.read_nil (a : Nat) : Memory.read [] a = none := rfl

theorem Memory.read_write_same (m : Memory) (a : Nat) (v : Byte) :
    Memory.read (Memory.write m a v) a = some v := by
  induction m with
  | nil => simp [Memory.write, Memory.read]
  | cons c m ih =>
    obtain ⟨k, b⟩ := c
    simp only [Memory.write]
    split
    · simp [Memory.read]
    · split
      · simp [Memory.read]
      · next hne => simp [Memory.read, Ne.symm hne, ih]

theorem Memory.read_write_other (m : Memory) {a b : Nat} (v : Byte) (hab : a ≠ b) :
    Memory.read (Memory.write m a v) b = Memory.read m b := by
  induction m with
  | nil => simp [Memory.write, Memory.read, hab]
  | cons c m ih =>
    obtain ⟨k, x⟩ := c
    simp only [Memory.write]
    split
    · simp [Memory.read, hab]
    · split
      · next hk => subst hk; simp [Memory.read, hab]
      · simp [Memory.read, ih]

/-- Reading after writing, in one equation. -/
theorem Memory.read_write (m : Memory) (a b : Nat) (v : Byte) :
    Memory.read (Memory.write m a v) b = if a = b then some v else Memory.read m b := by
  split
  · next h => subst h; exact Memory.read_write_same m a v
  · next h => exact Memory.read_write_other m v h

/-- Every offset listed after a write was listed before it or is the one written. -/
theorem Memory.mem_write {m : Memory} {a : Nat} {v : Byte} {c : Host.Cell}
    (h : c ∈ Memory.write m a v) : c = (a, v) ∨ c ∈ m := by
  induction m with
  | nil => simpa [Memory.write] using h
  | cons d m ih =>
    obtain ⟨k, b⟩ := d
    simp only [Memory.write] at h
    split at h
    · simpa using h
    · split at h
      · rcases List.mem_cons.mp h with h | h
        · exact .inl h
        · exact .inr (List.mem_cons_of_mem _ h)
      · rcases List.mem_cons.mp h with h | h
        · exact .inr (by simp [h])
        · rcases ih h with h | h
          · exact .inl h
          · exact .inr (List.mem_cons_of_mem _ h)

theorem Memory.write_wf {m : Memory} (hm : Memory.wf m) (a : Nat) (v : Byte) :
    Memory.wf (Memory.write m a v) := by
  induction m with
  | nil => simp [Memory.write]
  | cons c m ih =>
    obtain ⟨k, b⟩ := c
    obtain ⟨hk, hm'⟩ := List.pairwise_cons.mp hm
    simp only [Memory.write]
    split
    · next hlt =>
      refine List.pairwise_cons.mpr ⟨fun d hd => ?_, hm⟩
      rcases List.mem_cons.mp hd with rfl | hd
      · exact hlt
      · exact Nat.lt_trans hlt (hk d hd)
    · split
      · next heq => subst heq; exact List.pairwise_cons.mpr ⟨hk, hm'⟩
      · refine List.pairwise_cons.mpr ⟨fun d hd => ?_, ih hm'⟩
        rcases Memory.mem_write hd with rfl | hd
        · show k < a; omega
        · exact hk d hd

theorem Memory.writeWord_wf {m : Memory} (hm : Memory.wf m) (k : Nat) (w : Word16) :
    Memory.wf (Memory.writeWord m k w) :=
  Memory.write_wf (Memory.write_wf hm _ _) _ _

theorem Memory.writeWords_wf {m : Memory} (hm : Memory.wf m) (ws : List (Nat × Word16)) :
    Memory.wf (Memory.writeWords m ws) := by
  induction ws generalizing m with
  | nil => exact hm
  | cons p ws ih => exact ih (Memory.writeWord_wf hm p.1 p.2)

/-- Reading one byte after a two-byte write. -/
theorem Memory.read_writeWord (m : Memory) (k b : Nat) (w : Word16) :
    Memory.read (Memory.writeWord m k w) b =
      if k + 1 = b then some (w.extractLsb' 0 8)
      else if k = b then some (w.extractLsb' 8 8) else Memory.read m b := by
  simp [Memory.writeWord, Memory.read_write]

theorem Memory.ofBytesAt_ge (k : Nat) (bs : List Byte) : ∀ c ∈ Memory.ofBytesAt k bs, k ≤ c.1 := by
  induction bs generalizing k with
  | nil => simp [Memory.ofBytesAt]
  | cons b bs ih =>
    intro c hc
    rcases List.mem_cons.mp hc with rfl | hc
    · exact Nat.le_refl _
    · exact Nat.le_of_succ_le (ih (k + 1) c hc)

theorem Memory.ofBytesAt_wf (k : Nat) (bs : List Byte) : Memory.wf (Memory.ofBytesAt k bs) := by
  induction bs generalizing k with
  | nil => exact List.Pairwise.nil
  | cons b bs ih =>
    exact List.pairwise_cons.mpr ⟨fun c hc => Memory.ofBytesAt_ge (k + 1) bs c hc, ih (k + 1)⟩

theorem Memory.ofBytes_wf (bs : List Byte) : Memory.wf (Memory.ofBytes bs) :=
  Memory.ofBytesAt_wf 0 bs

theorem Memory.read_ofBytesAt (k : Nat) (bs : List Byte) (a : Nat) :
    Memory.read (Memory.ofBytesAt k bs) (k + a) = bs[a]? := by
  induction bs generalizing k a with
  | nil => simp [Memory.ofBytesAt]
  | cons b bs ih =>
    cases a with
    | zero => simp [Memory.ofBytesAt, Memory.read]
    | succ a =>
      have h := ih (k + 1) a
      rw [Nat.add_assoc, Nat.add_comm 1 a] at h
      simpa [Memory.ofBytesAt, Memory.read] using h

/-- REQ reads as the byte string it was laid out from, and nothing beyond it exists. -/
@[simp] theorem Memory.read_ofBytes (bs : List Byte) (a : Nat) :
    Memory.read (Memory.ofBytes bs) a = bs[a]? := by
  simpa [Memory.ofBytes] using Memory.read_ofBytesAt 0 bs a

/-- An offset below every listed one holds no byte. -/
theorem Memory.read_below {m : Memory} {a : Nat} (h : ∀ c ∈ m, a < c.1) : Memory.read m a = none := by
  induction m with
  | nil => rfl
  | cons c m ih =>
    obtain ⟨k, b⟩ := c
    have hk : a < k := h (k, b) (by simp)
    rw [Memory.read, if_neg (by omega)]
    exact ih fun c hc => h c (List.mem_cons_of_mem _ hc)

/-- The form is canonical: memories in it that read alike are equal data. -/
theorem Memory.ext_read {m n : Memory} (hm : Memory.wf m) (hn : Memory.wf n)
    (h : ∀ a, Memory.read m a = Memory.read n a) : m = n := by
  induction m generalizing n with
  | nil =>
    cases n with
    | nil => rfl
    | cons c n => simpa [Memory.read] using h c.1
  | cons c m ih =>
    obtain ⟨k, b⟩ := c
    cases n with
    | nil => simpa [Memory.read] using h k
    | cons d n =>
      obtain ⟨k', b'⟩ := d
      obtain ⟨hk, hm'⟩ := List.pairwise_cons.mp hm
      obtain ⟨hk', hn'⟩ := List.pairwise_cons.mp hn
      have below {x y : Nat} {v : Byte} {p : Memory} (hxy : x < y) (hp : ∀ c ∈ p, y < c.1) :
          Memory.read ((y, v) :: p) x = none :=
        Memory.read_below fun c hc => by
          rcases List.mem_cons.mp hc with rfl | hc
          · exact hxy
          · exact Nat.lt_trans hxy (hp c hc)
      have hkk : k = k' := by
        rcases Nat.lt_trichotomy k k' with hlt | he | hlt
        · have := h k
          rw [below hlt hk'] at this
          simp [Memory.read] at this
        · exact he
        · have := h k'
          rw [below hlt hk] at this
          simp [Memory.read] at this
      subst hkk
      have hbb : b = b' := by simpa [Memory.read] using h k
      subst hbb
      congr 1
      refine ih hm' hn' fun a => ?_
      by_cases ha : k = a
      · subst ha; rw [Memory.read_below hk, Memory.read_below hk']
      · simpa [Memory.read, ha] using h a

/-- The OUT space of a header is in canonical form. -/
theorem Header.store_wf (h : Header) : Memory.wf (Header.store h) :=
  Memory.writeWords_wf List.Pairwise.nil _

end Sys2Proof.Machine
end

