-- ==== Sys2Proof/Laws/State.lean ====
section
/-! SUPPORT. Laws/State: what each update of the state leaves in each field. -/

namespace Sys2Proof.Machine

variable (s : State) (req : List Byte) (rc : Nat) (h : Header) (i : Instr)

@[simp] theorem State.present_req : (s.present req rc).req = Memory.ofBytes req := rfl
@[simp] theorem State.present_out : (s.present req rc).out = [] := rfl
@[simp] theorem State.present_ports :
    (s.present req rc).ports = presentPorts Config.lenW Config.rcodeW req rc := rfl
@[simp] theorem State.present_headers : (s.present req rc).headers = s.headers := rfl
@[simp] theorem State.present_todo : (s.present req rc).todo = s.todo := rfl

@[simp] theorem State.produce_req : (s.produce h).req = s.req := rfl
@[simp] theorem State.produce_out : (s.produce h).out = Header.store h := rfl
@[simp] theorem State.produce_ports : (s.produce h).ports = s.ports := rfl
@[simp] theorem State.produce_headers : (s.produce h).headers = s.headers ++ [h] := rfl
@[simp] theorem State.produce_todo : (s.produce h).todo = s.todo := rfl

@[simp] theorem State.enqueue_req : (s.enqueue i).req = s.req := rfl
@[simp] theorem State.enqueue_out : (s.enqueue i).out = s.out := rfl
@[simp] theorem State.enqueue_ports : (s.enqueue i).ports = s.ports := rfl
@[simp] theorem State.enqueue_headers : (s.enqueue i).headers = s.headers := rfl
@[simp] theorem State.enqueue_todo : (s.enqueue i).todo = i :: s.todo := rfl

@[simp] theorem State.clearTodo_req : s.clearTodo.req = s.req := rfl
@[simp] theorem State.clearTodo_out : s.clearTodo.out = s.out := rfl
@[simp] theorem State.clearTodo_ports : s.clearTodo.ports = s.ports := rfl
@[simp] theorem State.clearTodo_headers : s.clearTodo.headers = s.headers := rfl
@[simp] theorem State.clearTodo_todo : s.clearTodo.todo = [] := rfl

@[simp] theorem State.afterFault_req : (s.afterFault i).req = Memory.ofBytes i.req := rfl
@[simp] theorem State.afterFault_out : (s.afterFault i).out = [] := rfl
@[simp] theorem State.afterFault_ports :
    (s.afterFault i).ports = presentPorts Config.lenW Config.rcodeW i.req i.rc := rfl
@[simp] theorem State.afterFault_headers : (s.afterFault i).headers = s.headers := rfl
@[simp] theorem State.afterFault_todo : (s.afterFault i).todo = s.todo := rfl

/-- Taking the next operation changes the caller's list alone. -/
theorem State.takeOperation_cons {i : Instr} {rest : List Instr} (h : s.todo = i :: rest) :
    s.takeOperation = some (i, { s with todo := rest }) := by
  simp [State.takeOperation, h]

theorem State.takeOperation_nil (h : s.todo = []) : s.takeOperation = none := by
  simp [State.takeOperation, h]

/-- Taking the operation just put in front gives the state back. -/
@[simp] theorem State.takeOperation_enqueue : (s.enqueue i).takeOperation = some (i, s) := rfl

end Sys2Proof.Machine
end

