-- ==== Sys2Proof/Laws/Ops.lean ====
section
/-! SUPPORT. Laws/Ops: what the operation ENCODE_HEADER can do, said once for both short-request policies
and both forms, so that no later proof unfolds it. -/

namespace Sys2Proof.Machine

/-- The header of an operation in closed form (spec/40_encode_header.md R71; with a missing byte as zero,
spec/93_implementation_defined.md U1). -/
def headerOf (req : List Byte) (rc : Nat) : Header :=
  responseHeader (byteOrZero req 0 ++ byteOrZero req 1) (byteOrZero req 4 ++ byteOrZero req 5) rc

theorem reqWord_zeroFill (req : List Byte) (k : Nat) :
    reqWord .zeroFill (Memory.ofBytes req) k
      = some (byteOrZero req k ++ byteOrZero req (k + 1)) := by
  have byte (j : Nat) : reqByte .zeroFill (Memory.ofBytes req) j = some (byteOrZero req j) := by
    cases h : req[j]? <;> simp [reqByte, byteOrZero, List.getD, h]
  simp [reqWord, byte]

theorem reqWord_fault {req : List Byte} {k : Nat} (h : k + 1 < req.length) :
    reqWord .fault (Memory.ofBytes req) k
      = some (byteOrZero req k ++ byteOrZero req (k + 1)) := by
  have byte (j : Nat) (hj : j < req.length) :
      reqByte .fault (Memory.ofBytes req) j = some (byteOrZero req j) := by
    simp [reqByte, byteOrZero, List.getD, hj]
  simp [reqWord, byte k (by omega), byte (k + 1) h]

/-- Under `fault`, a request of fewer than six bytes faults, whatever else is so. -/
theorem encodeHeaderOp_short {req : List Byte} (h : req.length < 6) (rc : Nat) (s : State) :
    encodeHeaderOp .fault req rc s = .fault (.undersizedRequest req.length) := by
  simp [encodeHeaderOp, raiseUndersized, h]

/-- Under `fault`, a request of six bytes or more gives its header. -/
theorem encodeHeaderOp_next {req : List Byte} (h : 6 ≤ req.length) (rc : Nat) (s : State) :
    encodeHeaderOp .fault req rc s = .next ((s.present req rc).produce (headerOf req rc)) := by
  have h0 := reqWord_fault (req := req) (k := 0) (by omega)
  have h4 := reqWord_fault (req := req) (k := 4) (by omega)
  simp [encodeHeaderOp, h0, h4, headerOf, Nat.not_lt.mpr h]

/-- Under `zero_fill`, every request gives a header. -/
theorem encodeHeaderOp_zeroFill (req : List Byte) (rc : Nat) (s : State) :
    encodeHeaderOp .zeroFill req rc s = .next ((s.present req rc).produce (headerOf req rc)) := by
  simp [encodeHeaderOp, reqWord_zeroFill, headerOf]

/-- The header of an instruction. -/
def instrHeader (i : Instr) : Header := headerOf i.req i.rc

/-- Either form is the one operation on its operands. -/
theorem exec_eq_op (i : Instr) (s : State) : exec i s = encodeHeaderOp .fault i.req i.rc s := by
  cases i <;> rfl

/-- The one check on an operation: six bytes of request (spec/30_encoding.md R48). -/
theorem wellFormed_iff (i : Instr) : i.wellFormed = true ↔ 6 ≤ i.req.length := by
  simp [Instr.wellFormed]

/-- The two outcomes of an operation: a header if it is well-formed, the fault if it is not. -/
theorem exec_cases (i : Instr) (s : State) :
    (i.wellFormed = true ∧ exec i s = .next ((s.present i.req i.rc).produce (instrHeader i))) ∨
    (i.wellFormed = false ∧ exec i s = .fault (.undersizedRequest i.req.length)) := by
  rw [exec_eq_op]
  by_cases h : 6 ≤ i.req.length
  · exact .inl ⟨by simpa [Instr.wellFormed] using h, encodeHeaderOp_next h _ _⟩
  · exact .inr ⟨by simpa [Instr.wellFormed] using h, encodeHeaderOp_short (by omega) _ _⟩

/-- Inversion: if an operation answers a next state, it was well-formed and this is the state. -/
theorem exec_next_inv {i : Instr} {s t : State} (h : exec i s = .next t) :
    i.wellFormed = true ∧ t = (s.present i.req i.rc).produce (instrHeader i) := by
  rcases exec_cases i s with ⟨hw, he⟩ | ⟨_, he⟩
  · rw [he] at h; exact ⟨hw, (Host.Outcome.next.inj h).symm⟩
  · rw [he] at h; cases h

/-- Inversion: if a step answers a next state, it performed the first operation of the caller's list. -/
theorem step_next_inv {s t : State} (h : step s = .next t) :
    ∃ i rest, s.todo = i :: rest ∧ exec i { s with todo := rest } = .next t := by
  cases hs : s.todo with
  | nil => simp [step, State.takeOperation_nil s hs] at h
  | cons i rest =>
    refine ⟨i, rest, rfl, ?_⟩
    simpa [step, State.takeOperation_cons s hs] using h

end Sys2Proof.Machine
end

