-- ==== Sys2Proof/Laws/Header.lean ====
section
/-! SUPPORT. Laws/Header: the twelve bytes of a header and of OUT. -/

namespace Sys2Proof.Machine

@[simp] theorem Header.toBytes_length (h : Header) : h.toBytes.length = 12 := rfl

/-- OUT holds the twelve bytes of the header stored, and no other (spec/20_memory.md R22). -/
theorem Header.read_store (h : Header) (k : Nat) :
    Memory.read (Header.store h) k = h.toBytes[k]? := by
  match k with
  | 0 | 1 | 2 | 3 | 4 | 5 | 6 | 7 | 8 | 9 | 10 | 11 =>
    simp [Header.store, Memory.writeWords, Header.fields, Memory.read_writeWord, Header.toBytes]
  | k + 12 =>
    simp [Header.store, Memory.writeWords, Header.fields, Memory.read_writeWord, Header.toBytes]

/-- The more significant byte of a field read big-endian (spec/20_memory.md R24). -/
theorem extractLsb_append_hi (a b : Byte) : BitVec.extractLsb' (n := 16) 8 8 (a ++ b) = a := by
  show BitVec.extractLsb' (n := 8 + 8) 8 8 (a ++ b) = a
  ext i hi
  rw [BitVec.getElem_extractLsb', BitVec.getLsbD_append]
  simp [BitVec.getLsbD_eq_getElem hi]

/-- The less significant byte of a field read big-endian (R24). -/
theorem extractLsb_append_lo (a b : Byte) : BitVec.extractLsb' (n := 16) 0 8 (a ++ b) = b := by
  show BitVec.extractLsb' (n := 8 + 8) 0 8 (a ++ b) = b
  ext i hi
  rw [BitVec.getElem_extractLsb', BitVec.getLsbD_append]
  simp [hi]

end Sys2Proof.Machine
end

