-- ==== Sys2Proof/Laws/PerInstr.lean ====
section
/-! SUPPORT. Laws/PerInstr: one family of statements about every instruction as syntax. -/

namespace Sys2Proof.Laws.EncodedLength

/-- The encoding of an instruction is one word of twelve bytes (spec/30_encoding.md R55). -/
def Statement (i : Instr) : Prop := (encode i).length = Config.hdrBytes

theorem encodeHeader (req : List Byte) (rc : Nat) : Statement (.encodeHeader req rc) := rfl

theorem encodeHeaderDefault (req : List Byte) : Statement (.encodeHeaderDefault req) := rfl

end Sys2Proof.Laws.EncodedLength
end

