-- ==== Sys2Proof/Laws/Run.lean ====
section
/-! SUPPORT. Laws/Run: runs of several steps, one step at a time, and what `stepOn` can do. -/

namespace Sys2Proof.Machine

@[simp] theorem core_run_zero (s : State) : Sys2Proof.core.run 0 s = .next s := rfl

theorem core_run_succ {s t : State} (h : step s = .next t) (n : Nat) :
    Sys2Proof.core.run (n + 1) s = Sys2Proof.core.run n t := by
  have hs : Sys2Proof.core.step s = .next t := h
  simp only [Host.Core.run, hs]

@[simp] theorem resumeCore_run_zero (s : State) : resumeCore.run 0 s = .next s := rfl

theorem resumeCore_run_succ {s t : State} (h : stepOn s = .next t) (n : Nat) :
    resumeCore.run (n + 1) s = resumeCore.run n t := by
  have hs : resumeCore.step s = .next t := h
  simp only [Host.Core.run, hs]

/-- The block that goes on always answers a next state while an operation is pending: that of a header, or
that of a fault (spec/60_exceptions.md R106, R108). -/
theorem stepOn_cons {s : State} {i : Instr} {rest : List Instr} (h : s.todo = i :: rest) :
    (i.wellFormed = true ∧ stepOn s =
      .next (({ s with todo := rest }.present i.req i.rc).produce (instrHeader i))) ∨
    (i.wellFormed = false ∧ stepOn s = .next (({ s with todo := rest } : State).afterFault i)) := by
  rcases exec_cases i { s with todo := rest } with ⟨hw, he⟩ | ⟨hw, he⟩
  · exact .inl ⟨hw, by simp [stepOn, State.takeOperation_cons s h, he]⟩
  · exact .inr ⟨hw, by simp [stepOn, State.takeOperation_cons s h, he]⟩

end Sys2Proof.Machine
end

