-- ==== Sys2Proof/Tests/Slice0.lean ====
section
/-! SUPPORT. Tests/Slice0: expected results from spec/95_test_vectors.md (the vector is named in each comment), words
written out from spec/30_encoding.md R44, and a witness for the hypotheses of each obligation. -/

namespace Sys2Proof.Tests

open Sys2Proof.Machine

/-- DNSSRV's own example request (spec/95). -/
def q0 : List Byte := [0xAB, 0xCD, 0x01, 0x00, 0x00, 0x01, 0, 0, 0, 0, 0, 0]

/-- The bytes of OUT after an operation, or the length a fault carries. -/
def outcomeBytes : Host.Outcome State Fault Refusal → Option (List Byte ⊕ Nat)
  | .next t => some (.inl (t.out.map (·.2)))
  | .fault (.undersizedRequest n) => some (.inr n)
  | .refused _ => none

/-! ## The well-formedness check -/

theorem test_wellFormed_six : (Instr.encodeHeader (q0.take 6) 300).wellFormed = true := by decide

theorem test_wellFormed_refuses_five : (Instr.encodeHeader (q0.take 5) 3).wellFormed = false := by decide

theorem test_wellFormed_refuses_empty : (Instr.encodeHeaderDefault []).wellFormed = false := by decide

/-! ## Decoding: words written out bit by bit from R44 -/

-- i = 0x1234, QR = 1, eleven zero bits, r = 0101, q = 0x9ABC, 48 zero bits (PV10)
theorem test_decode_encodeHeader :
    decode [0b00010010, 0b00110100, 0b10000000, 0b00000101, 0b10011010, 0b10111100, 0, 0, 0, 0, 0, 0]
      = .ok (.encodeHeader [0x12, 0x34, 0, 0, 0x9A, 0xBC] 5) [] := by decide

-- i = 0xABCD, QR = 1, fifteen zero bits, q = 0x0001, 48 zero bits (V1)
theorem test_decode_default :
    decode [0b10101011, 0b11001101, 0b10000000, 0b00000000, 0b00000000, 0b00000001, 0, 0, 0, 0, 0, 0, 7]
      = .ok (.encodeHeaderDefault [0xAB, 0xCD, 0, 0, 0x00, 0x01]) [7] := by decide

theorem test_decode_rejects_query :
    decode [0xAB, 0xCD, 0x01, 0x00, 0x00, 0x01, 0, 0, 0, 0, 0, 0] = .reject .queryBit := by decide

theorem test_decode_rejects_opcode :
    decode [0xAB, 0xCD, 0xA8, 0x00, 0x00, 0x01, 0, 0, 0, 0, 0, 0] = .reject .forcedFlagSet := by decide

theorem test_decode_rejects_recursionAvailable :
    decode [0xAB, 0xCD, 0x80, 0x80, 0x00, 0x01, 0, 0, 0, 0, 0, 0] = .reject .forcedFlagSet := by decide

-- Program 5's patched header
theorem test_decode_rejects_ancount :
    decode [0xAB, 0xCD, 0x80, 0x00, 0x00, 0x01, 0x00, 0x01, 0, 0, 0, 0] = .reject .recordCount := by decide

theorem test_decode_rejects_short : decode [0xAB, 0xCD, 0x80] = .reject (.truncated 3) := by decide

/-! ## One step of each operation -/

-- V54: the request's own flags and counts are ignored
theorem test_encodeHeader_ignores_request_flags :
    outcomeBytes (exec (.encodeHeader [0xAB, 0xCD, 0x81, 0x85, 0, 1, 0, 1, 0, 2, 0, 3] 2) State.reset)
      = some (.inl [0xAB, 0xCD, 0x80, 0x02, 0, 1, 0, 0, 0, 0, 0, 0]) := by decide

-- V25 with the code of V42
theorem test_encodeHeader_five_bytes :
    outcomeBytes (exec (.encodeHeader (q0.take 5) 255) State.reset) = some (.inr 5) := by decide

-- V51: each byte goes to its own offset; the request has RD set
theorem test_encodeHeaderDefault_ignores_rd :
    outcomeBytes (exec (.encodeHeaderDefault [0x00, 0xFF, 1, 0, 0xFF, 0x00]) State.reset)
      = some (.inl [0x00, 0xFF, 0x80, 0x00, 0xFF, 0x00, 0, 0, 0, 0, 0, 0]) := by decide

-- V30
theorem test_encodeHeaderDefault_empty :
    outcomeBytes (exec (.encodeHeaderDefault []) State.reset) = some (.inr 0) := by decide

-- V35, the policy that is not this hardware's
theorem test_zeroFill_one_byte :
    outcomeBytes (encodeHeaderOp .zeroFill [0xAB] 3 State.reset)
      = some (.inl [0xAB, 0x00, 0x80, 0x03, 0, 0, 0, 0, 0, 0, 0, 0]) := by decide

/-! ## The ports -/

-- PV10
theorem test_port_header :
    (PortsIn.mk (lenW := 16) (rcodeW := 8) 0x123456789ABC 6 0x75).header .fault
      = 0x123480059ABC000000000000 := by decide

-- PV8
theorem test_port_err : (PortsIn.mk (lenW := 16) (rcodeW := 8) 0xABCD01000001 5 3).errO .fault = true := by decide

-- V35 at the ports: the bits of the five missing bytes are gated off (U1)
theorem test_port_zeroFill :
    (PortsIn.mk (lenW := 16) (rcodeW := 8) 0xABCD01000001 1 3).header .zeroFill
      = 0xAB0080030000000000000000 := by decide

-- V24: a length of 70000 is presented as 0xFFFF
theorem test_saturate : saturateLen 16 70000 = 0xFFFF := by decide

/-! ## Witnesses: the hypotheses of the obligations can be met -/

/-- Six bytes, the boundary (V20), in both forms. -/
theorem witness_six_bytes :
    6 ≤ (Instr.encodeHeader (q0.take 6) 16).req.length ∧
    6 ≤ (Instr.encodeHeaderDefault (q0.take 6)).req.length ∧ 15 < 16 := by decide

/-- Five bytes, the other side of the boundary, in both forms, of equal length and unequal content. -/
theorem witness_five_bytes :
    (Instr.encodeHeader (q0.take 5) 3).req.length < 6 ∧
    (Instr.encodeHeaderDefault [1, 2, 3, 4, 5]).req.length = (Instr.encodeHeader (q0.take 5) 3).req.length := by
  decide

/-- ResponseCodeTruncated: two codes, equal modulo 16. -/
theorem witness_equal_mod_16 : 31 % 16 = 15 % 16 := by decide

/-- DependsOnUsedBitsOnly: V4 against V53, requests of different length and content, codes 0 and 16. -/
theorem witness_used_bits_equal :
    let i := Instr.encodeHeaderDefault [0xAB, 0xCD, 0x81, 0x85, 0, 1, 0, 1, 0, 2, 0, 3]
    let j := Instr.encodeHeader (q0.take 6) 16
    6 ≤ i.req.length ∧ 6 ≤ j.req.length ∧ i.req[0]? = j.req[0]? ∧ i.req[1]? = j.req[1]? ∧
      i.req[4]? = j.req[4]? ∧ i.req[5]? = j.req[5]? ∧ i.rc % 16 = j.rc % 16 := by decide

/-- A state with a well-formed operation pending after a faulting one. -/
def pending : State :=
  { State.reset with todo := [.encodeHeader (q0.take 5) 3, .encodeHeader q0 3, .encodeHeaderDefault q0] }

/-- FaultLeavesNoTrace, GoesWrongExactlyOnBrokenDuty, StepPerformsNextOperation (first clause). -/
theorem witness_pending_fault :
    pending.todo = .encodeHeader (q0.take 5) 3 :: .encodeHeader q0 3 :: [.encodeHeaderDefault q0] ∧
      (q0.take 5).length < 6 := by decide

/-- FaultLeavesNoTrace: a fault on the last pending operation, and a fault before others. -/
theorem witness_last_pending_fault :
    (∃ s : State, s.todo = [.encodeHeaderDefault []]) ∧ (Instr.encodeHeaderDefault []).req.length < 6 :=
  ⟨⟨{ State.reset with todo := [.encodeHeaderDefault []] }, rfl⟩, by decide⟩

/-- ZeroFillPolicy: a tuple of length 1 whose `req_i` has bits set beyond the one byte that exists, on ports of
the least widths, and the request it stands for. -/
theorem witness_short_tuple_with_other_bits :
    let p := PortsIn.mk (lenW := 3) (rcodeW := 4) 0xABCD01000001 1 3
    let req : List Byte := [0xAB]
    req.length = p.reqLenI.toNat ∧ p.rcodeI.toNat = 3 ∧ 3 ≤ 3 ∧ 4 ≤ 4 ∧
      ∀ k, k < 6 → k < req.length → req[k]? = some (p.reqI.extractLsb' (40 - 8 * k) 8) := by decide

/-- StepPerformsNextOperation (second clause). -/
theorem witness_nothing_pending : State.reset.todo = [] := rfl

/-- OperationFrame, ResultInjective, ProducibleHeaders: operations that answer a next state with one header. -/
theorem witness_exec_next :
    ∃ t u, exec (.encodeHeader q0 0x35) State.reset = .next t ∧
      exec (.encodeHeader (q0.take 6) 5) State.reset = .next u ∧ t.out = u.out :=
  ⟨_, _, rfl, rfl, by decide⟩

/-- WriteOrderUnobservable: the six writes in reverse. -/
theorem witness_reversed_writes (h : Header) : h.fields.reverse.Perm h.fields := List.reverse_perm _

/-- PortExpression, TupleOperationOutcome: both levels of `err_o`. -/
theorem witness_err_levels :
    ((PortsIn.mk (lenW := 16) (rcodeW := 8) 0xABCD01000001 6 3).sample .fault 0).errO = false ∧
    ((PortsIn.mk (lenW := 16) (rcodeW := 8) 0xABCD01000001 5 3).sample .fault 0).errO = true := by decide

/-- ErrFollowsLengthAlone, HdrUnspecifiedUnderErr: equal lengths below six, everything else different. -/
theorem witness_short_tuples :
    (PortsIn.mk (lenW := 16) (rcodeW := 8) 1 5 2).reqLenI = (PortsIn.mk (lenW := 16) (rcodeW := 8) 3 5 4).reqLenI ∧
    (PortsIn.mk (lenW := 16) (rcodeW := 8) 1 5 2).reqLenI.toNat < 6 := by decide

/-- PortsRefineOperation, first part: a tuple and a request of its length that agrees with it, from six bytes up
and below. -/
theorem witness_tuple_and_request :
    let p := PortsIn.mk (lenW := 3) (rcodeW := 4) 0xABCD01000001 7 3
    let q := PortsIn.mk (lenW := 3) (rcodeW := 4) 0xABCD01000001 2 3
    3 ≤ 3 ∧ 4 ≤ 4 ∧
    ((q0.take 7).length = p.reqLenI.toNat ∧ 6 ≤ (q0.take 7).length ∧
      ∀ k, k < 6 → k < (q0.take 7).length → (q0.take 7)[k]? = some (p.reqI.extractLsb' (40 - 8 * k) 8)) ∧
    ((q0.take 2).length = q.reqLenI.toNat ∧ (q0.take 2).length < 6 ∧
      ∀ k, k < 6 → k < (q0.take 2).length → (q0.take 2)[k]? = some (q.reqI.extractLsb' (40 - 8 * k) 8)) := by
  decide

/-- WidthsChangeNoOutput: one tuple on ports of two settings. -/
theorem witness_two_widths :
    let p := PortsIn.mk (lenW := 16) (rcodeW := 8) 0xABCD01000001 7 3
    let q := PortsIn.mk (lenW := 3) (rcodeW := 4) 0xABCD01000001 7 3
    p.reqI = q.reqI ∧ p.reqLenI.toNat = q.reqLenI.toNat ∧ p.rcodeI.toNat = q.rcodeI.toNat := by decide

/-- DecodeEncode, DecodeEncodeOperands. -/
theorem witness_wellFormed : (Instr.encodeHeader q0 0x35).wellFormed = true ∧ (15 : BitVec 4) ≠ 0 := by decide

/-- EncodeDecode, with bytes left over. -/
theorem witness_decodes :
    decode [0xAB, 0xCD, 0x80, 0x03, 0, 1, 0, 0, 0, 0, 0, 0, 9]
      = .ok (.encodeHeader [0xAB, 0xCD, 0, 0, 0, 1] 3) [9] := by decide

/-- ProducibleHeaders, DecodeFollowsTable: V7's header, and V1's for the default row. -/
theorem witness_resp_hdr :
    (0xABCD80030001000000000000 : BitVec 96) &&& 0x0000FFF00000FFFFFFFFFFFF = 0x000080000000000000000000 ∧
    19 % 16 = ((0xABCD80030001000000000000 : BitVec 96).extractLsb' 64 4).toNat ∧
    (0xABCD80000001000000000000 : BitVec 96) &&& 0x0000FFFF0000FFFFFFFFFFFF = 0x000080000000000000000000 := by
  decide

/-- StepRunsDecodedWord: V2's word is fetched and performed by the first step after reset. -/
theorem witness_word_decodes :
    decodeTableWord 96 0xABCD80030001000000000000 = some (.encodeHeader [0xAB, 0xCD, 0, 0, 0, 1] 3) := by decide

theorem test_step_withFetchWord :
    outcomeBytes (step (State.reset.withFetchWord 96 0xABCD80030001000000000000))
      = some (.inl [0xAB, 0xCD, 0x80, 0x03, 0, 1, 0, 0, 0, 0, 0, 0]) := by decide

/-- StepKeepsInv: a state that meets the invariant and takes a step. -/
theorem witness_inv_and_step :
    let s : State := { State.reset with todo := [.encodeHeader q0 3] }
    s.Inv ∧ ∃ t, step s = .next t :=
  ⟨⟨List.Pairwise.nil, List.Pairwise.nil, fun _ hh => absurd hh (List.not_mem_nil), .inl rfl⟩, _, rfl⟩

/-- StepKeepsInv from a state in which a header exists: the step after that one. -/
theorem witness_second_step :
    ∃ t u, step { State.reset with todo := [.encodeHeader q0 3, .encodeHeaderDefault q0] } = .next t ∧
      step t = .next u ∧ t.out ≠ [] := ⟨_, _, rfl, rfl, by decide⟩

/-- StepOnKeepsInv: the invariant and a step over a fault. -/
theorem witness_stepOn_next : pending.Inv ∧ ∃ t, stepOn pending = .next t :=
  ⟨⟨List.Pairwise.nil, List.Pairwise.nil, fun _ hh => absurd hh (List.not_mem_nil), .inl rfl⟩, _, rfl⟩

/-- DutyKeptRunCompletes: two operations pending, both within the caller's duty. -/
theorem witness_duty_kept : ({ State.reset with todo := [.encodeHeader q0 3, .encodeHeaderDefault (q0.take 6)] } : State).DutyKept := by
  simp [State.DutyKept, Instr.wellFormed, Instr.req, q0, Config.reqMinBytes]

end Sys2Proof.Tests
end

namespace Sys2Proof.Machine

/-! ## The flags word and the vector of a response (spec/00_scope.md R6, spec/30_encoding.md R44, R45) -/

/-- R44: QR, the eleven forced zeros, then the response code. -/
theorem flagsWord_eq_append (rc : Nat) : flagsWord rc = 1#1 ++ 0#11 ++ rc4 rc := by
  have h : ∀ r : BitVec 4, 0x8000#16 ||| r.setWidth 16 = 1#1 ++ 0#11 ++ r := by decide
  exact h (rc4 rc)

theorem flagsWord_high_byte (rc : Nat) : (flagsWord rc).extractLsb' 8 8 = 0x80#8 := by
  have h : ∀ r : BitVec 4, (0x8000#16 ||| r.setWidth 16).extractLsb' 8 8 = 0x80#8 := by decide
  exact h (rc4 rc)

theorem flagsWord_low_byte (rc : Nat) :
    (flagsWord rc).extractLsb' 0 8 = BitVec.ofNat 8 (rc % 16) := by
  have h : ∀ r : BitVec 4, (0x8000#16 ||| r.setWidth 16).extractLsb' 0 8 = BitVec.ofNat 8 r.toNat := by
    decide
  simpa [flagsWord, rc4] using h (rc4 rc)

/-- R44: the vector of a response, field by field. -/
theorem responseHeader_toVec (id qd : Word16) (rc : Nat) :
    (responseHeader id qd rc).toVec = id ++ 1#1 ++ 0#11 ++ rc4 rc ++ qd ++ 0#48 := by
  have hzero : 0#48 = 0#16 ++ 0#16 ++ 0#16 := rfl
  rw [hzero]
  simp only [Header.toVec, responseHeader, flagsWord_eq_append, BitVec.append_assoc, BitVec.cast_eq]
  rfl

/-- R6: a byte slice of the vector falls into one field, as its high or its low byte. -/
theorem Header.getElem?_toBytes (h : Header) {k : Nat} (hk : k < 12) :
    h.toBytes[k]? = some (h.toVec.extractLsb' (88 - 8 * k) 8) := by
  show _ = some (BitVec.extractLsb' (n := 16 + 16 + 16 + 16 + 16 + 16) _ 8
    (h.id ++ h.flags ++ h.qdcount ++ h.ancount ++ h.nscount ++ h.arcount))
  match k with
  | 0 | 1 | 2 | 3 | 4 | 5 | 6 | 7 | 8 | 9 | 10 | 11 =>
    simp only [BitVec.extractLsb'_append_eq_ite]
    simp [Header.toBytes, Header.fields]
  | k + 12 => omega

/-! ## What an operation delivers (spec/40_encode_header.md R65, R71) -/

/-- R71: the header of an operation as bytes. -/
theorem headerOf_toBytes (req : List Byte) (rc : Nat) :
    (headerOf req rc).toBytes =
      [byteOrZero req 0, byteOrZero req 1, 0x80, BitVec.ofNat 8 (rc % 16),
        byteOrZero req 4, byteOrZero req 5, 0, 0, 0, 0, 0, 0] := by
  simp [Header.toBytes, Header.fields, headerOf, responseHeader, extractLsb_append_hi,
    extractLsb_append_lo, flagsWord_high_byte, flagsWord_low_byte]

theorem State.delivers_produce (s : State) (req : List Byte) (rc : Nat) (h : Header) :
    s.Delivers ((s.present req rc).produce h) h.toBytes :=
  ⟨Header.read_store h, h, rfl, rfl⟩

/-! ## The operand tuple at the ports (spec/41_ports.md R81, R82, R92) -/

/-- R92: ports whose used bytes and code are those of an operation show its header. -/
theorem PortsIn.header_eq_toVec {lenW rcodeW : Nat} {policy : ShortReqPolicy}
    {p : PortsIn lenW rcodeW} {req : List Byte} {rc : Nat}
    (hbyte : ∀ k, k < 6 → p.usedByte policy k = byteOrZero req k)
    (hcode : p.rcodeI.setWidth 4 = rc4 rc) :
    p.header policy = (headerOf req rc).toVec := by
  rw [headerOf, responseHeader_toVec, PortsIn.header, hcode, hbyte 0 (by decide),
    hbyte 1 (by decide), hbyte 4 (by decide), hbyte 5 (by decide)]

/-- R81: byte `k` of the request stands at `req_i[47-8k : 40-8k]`. -/
theorem packReqI_extractLsb' (req : List Byte) {k : Nat} (hk : k < 6) :
    (packReqI req).extractLsb' (40 - 8 * k) 8 = byteOrZero req k := by
  show BitVec.extractLsb' (n := 8 + 8 + 8 + 8 + 8 + 8) _ 8
    (byteOrZero req 0 ++ byteOrZero req 1 ++ byteOrZero req 2 ++ byteOrZero req 3
      ++ byteOrZero req 4 ++ byteOrZero req 5) = _
  match k with
  | 0 | 1 | 2 | 3 | 4 | 5 =>
    simp only [BitVec.extractLsb'_append_eq_ite]
    simp
  | k + 6 => omega

theorem byteOrZero_of_getElem? {req : List Byte} {k : Nat} {b : Byte} (h : req[k]? = some b) :
    byteOrZero req k = b := by
  simp [byteOrZero, List.getD, h]

theorem byteOrZero_eq_zero {req : List Byte} {k : Nat} (hk : req.length ≤ k) :
    byteOrZero req k = 0 := by
  simp [byteOrZero, hk]

/-- R82: a port of three bits or more tells every length up to six from the longer ones. -/
theorem lt_saturateLen_iff {lenW k : Nat} (hw : 3 ≤ lenW) (hk : k < 6) (length : Nat) :
    k < (saturateLen lenW length).toNat ↔ k < length := by
  have hpow : 2 ^ 3 ≤ 2 ^ lenW := Nat.pow_le_pow_right (by decide) hw
  have hmod : min length (2 ^ lenW - 1) % 2 ^ lenW = min length (2 ^ lenW - 1) :=
    Nat.mod_eq_of_lt (by omega)
  rw [saturateLen, BitVec.toNat_ofNat, hmod]
  omega

/-- R83: a port of four bits or more keeps the code bits that are used. -/
theorem reduceRcode_setWidth {rcodeW : Nat} (hw : 4 ≤ rcodeW) (rc : Nat) :
    (reduceRcode rcodeW rc).setWidth 4 = rc4 rc :=
  BitVec.setWidth_ofNat_of_le hw rc

/-! ## The ports under `zero_fill` (spec/93_implementation_defined.md U1) -/

/-- Under `zero_fill` the ports raise no error and show the header of the operation they carry. -/
theorem PortsIn.sample_zeroFill {lenW rcodeW : Nat} {p : PortsIn lenW rcodeW} {req : List Byte}
    {rc : Nat} (hbyte : ∀ k, k < 6 → p.usedByte .zeroFill k = byteOrZero req k)
    (hcode : p.rcodeI.setWidth 4 = rc4 rc) (n : Nat) :
    p.sample .zeroFill n = { errO := false, hdrO := (headerOf req rc).toVec } := by
  simp [PortsIn.sample, PortsIn.errO, PortsIn.header_eq_toVec hbyte hcode]

/-- A tuple that agrees with a request in the bytes it has carries that request: the gate hides the other
bits of `req_i`. -/
theorem PortsIn.usedByte_zeroFill {lenW rcodeW : Nat} {p : PortsIn lenW rcodeW} {req : List Byte}
    (hlen : req.length = p.reqLenI.toNat)
    (hreq : ∀ k, k < 6 → k < req.length → req[k]? = some (p.reqI.extractLsb' (40 - 8 * k) 8))
    {k : Nat} (hk : k < 6) : p.usedByte .zeroFill k = byteOrZero req k := by
  by_cases h : k < req.length
  · simp [PortsIn.usedByte, PortsIn.reqByteAt, ← hlen, h, byteOrZero_of_getElem? (hreq k hk h)]
  · simp [PortsIn.usedByte, ← hlen, h, byteOrZero_eq_zero (Nat.not_lt.mp h)]

/-- The same for a request as it is presented at the ports. -/
theorem presentPorts_usedByte_zeroFill {lenW : Nat} (hw : 3 ≤ lenW) (rcodeW : Nat)
    (req : List Byte) (rc : Nat) {k : Nat} (hk : k < 6) :
    (presentPorts lenW rcodeW req rc).usedByte .zeroFill k = byteOrZero req k := by
  simp only [PortsIn.usedByte, PortsIn.reqByteAt, presentPorts, lt_saturateLen_iff hw hk,
    packReqI_extractLsb' req hk]
  split
  · rfl
  · next h => exact (byteOrZero_eq_zero (Nat.not_lt.mp h)).symm

/-! ## The obligations of spec/00_scope.md -/

/-- Settles O19: each byte slice of the vector lies in one field. -/
theorem headerVectorPacking : Obligations.HeaderVectorPacking :=
  fun h _ hk => h.getElem?_toBytes hk

/-- Settles O25: the header is `headerOf`, whose used bytes and code both kinds of tuple carry. -/
theorem zeroFillPolicy : Obligations.ZeroFillPolicy := by
  intro req rc s
  refine ⟨⟨_, headerOf req rc, encodeHeaderOp_zeroFill req rc s, ?delivered, rfl, ?tuple, ?presented⟩,
    ?agree⟩
  case delivered =>
    have h := s.delivers_produce req rc (headerOf req rc)
    rwa [headerOf_toBytes] at h
  case tuple =>
    intro lenW rcodeW n p hlen hreq hrc
    have hcode : p.rcodeI.setWidth 4 = rc4 rc := by
      rw [← hrc]
      exact (BitVec.ofNat_toNat 4 p.rcodeI).symm
    exact PortsIn.sample_zeroFill (fun k hk => PortsIn.usedByte_zeroFill hlen hreq hk) hcode n
  case presented =>
    intro lenW rcodeW n hlenW hrcodeW
    exact PortsIn.sample_zeroFill (fun k hk => presentPorts_usedByte_zeroFill hlenW rcodeW req rc hk)
      (reduceRcode_setWidth hrcodeW rc) n
  case agree =>
    intro h
    rw [encodeHeaderOp_zeroFill, encodeHeaderOp_next h]

/-- Settles O40: taking the operation from the list is all that `step` does before `exec`. -/
theorem stepPerformsNextOperation : Obligations.StepPerformsNextOperation := by
  refine fun s => ⟨fun i rest h => ?_, fun h => ?_⟩
  · simp only [step, s.takeOperation_cons h]
  · simp only [step, s.takeOperation_nil h]

end Sys2Proof.Machine

namespace Sys2Proof.Machine

/-! ## A response fits RESP_HDR (spec/30_encoding.md R44) -/

/-- The mask of R44, field by field: QR and the eleven forced zeros, then the three record counts. -/
theorem rowEncodeHeader_mask_eq_append :
    rowEncodeHeader.mask = 0#16 ++ 1#1 ++ 0x7FF#11 ++ 0#4 ++ 0#16 ++ BitVec.allOnes 48 := by decide

/-- The match of R44, field by field: of the fixed bits only QR is 1. -/
theorem rowEncodeHeader_pattern_eq_append :
    rowEncodeHeader.pattern = 0#16 ++ 1#1 ++ 0#11 ++ 0#4 ++ 0#16 ++ 0#48 := by decide

/-- The mask clears the fields an operation fills in and keeps the ones R44 fixes. -/
theorem responseHeader_isResponse (id qd : Word16) (rc : Nat) :
    (responseHeader id qd rc).IsResponse := by
  have hfields : (id ++ 1#1 ++ 0#11 ++ rc4 rc ++ qd ++ 0#48) &&&
      (0#16 ++ 1#1 ++ 0x7FF#11 ++ 0#4 ++ 0#16 ++ BitVec.allOnes 48) =
      0#16 ++ 1#1 ++ 0#11 ++ 0#4 ++ 0#16 ++ 0#48 := by
    simp only [BitVec.and_append, BitVec.and_zero, BitVec.zero_and, BitVec.and_self]
  have hmasked : (responseHeader id qd rc).toVec &&& rowEncodeHeader.mask = rowEncodeHeader.pattern := by
    rw [responseHeader_toVec, rowEncodeHeader_mask_eq_append, rowEncodeHeader_pattern_eq_append]
    exact hfields
  simpa [Header.IsResponse, TableRow.accepts] using hmasked

theorem instrHeader_isResponse (i : Instr) : (instrHeader i).IsResponse :=
  responseHeader_isResponse _ _ _

/-! ## An operation presented at the ports of this policy (spec/41_ports.md R86, R91, R92) -/

/-- R86: a presented operation raises `err_o` exactly when its request is undersized. -/
theorem presentPorts_errO_fault {lenW : Nat} (hw : 3 ≤ lenW) (rcodeW : Nat) (req : List Byte)
    (rc : Nat) : (presentPorts lenW rcodeW req rc).errO .fault = decide (req.length < 6) := by
  have hlen : 5 < (saturateLen lenW req.length).toNat ↔ 5 < req.length :=
    lt_saturateLen_iff hw (by decide) req.length
  refine decide_eq_decide.mpr ?_
  simp only [presentPorts, Config.reqMinBytes_eq]
  omega

theorem presentPorts_usedByte_fault (lenW rcodeW : Nat) (req : List Byte) (rc : Nat) {k : Nat}
    (hk : k < 6) : (presentPorts lenW rcodeW req rc).usedByte .fault k = byteOrZero req k :=
  packReqI_extractLsb' req hk

/-- R91: the ports show the header of the operation presented at them. -/
theorem presentPorts_sample_fault {lenW rcodeW : Nat} (hlenW : 3 ≤ lenW) (hrcodeW : 4 ≤ rcodeW)
    {req : List Byte} (hreq : 6 ≤ req.length) (rc n : Nat) :
    (presentPorts lenW rcodeW req rc).sample .fault n =
      { errO := false, hdrO := (headerOf req rc).toVec } := by
  have herr : (presentPorts lenW rcodeW req rc).errO .fault = false := by
    simpa [presentPorts_errO_fault hlenW] using hreq
  have hhdr : (presentPorts lenW rcodeW req rc).header .fault = (headerOf req rc).toVec :=
    PortsIn.header_eq_toVec (fun _ hk => presentPorts_usedByte_fault lenW rcodeW req rc hk)
      (reduceRcode_setWidth hrcodeW rc)
  simp [PortsIn.sample, herr, hhdr]

/-! ## The invariant after an operation -/

/-- A state in which a well-formed operation has just ended meets the invariant, whatever stood in REQ, OUT
and the ports before it. -/
theorem State.inv_present_produce {s : State} {i : Instr} (hs : ∀ h ∈ s.headers, h.IsResponse)
    (hw : i.wellFormed = true) : ((s.present i.req i.rc).produce (instrHeader i)).Inv where
  reqWf := Memory.ofBytes_wf i.req
  outWf := (instrHeader i).store_wf
  responses := by
    simpa [or_imp, forall_and] using And.intro hs (instrHeader_isResponse i)
  outAgrees :=
    .inr ⟨instrHeader i, List.getLast?_concat, rfl,
      presentPorts_sample_fault (by decide) (by decide) ((wellFormed_iff i).mp hw) i.rc⟩

/-! ## The next step performs the operation placed in front -/

theorem step_enqueue (s : State) (i : Instr) : step (s.enqueue i) = exec i s := by
  simp only [step, State.takeOperation_enqueue]

theorem State.withFetchWord_of_decodes {nbits w : Nat} {i : Instr}
    (h : decodeTableWord nbits w = some i) (s : State) : s.withFetchWord nbits w = s.enqueue i := by
  simp only [State.withFetchWord, h]

/-! ## The obligations of spec/10_state.md -/

/-- Settles O44: a step performs an operation, and only the headers handed over before it matter. -/
theorem stepKeepsInv : Obligations.StepKeepsInv := by
  intro s t hs hstep
  obtain ⟨i, rest, _, hexec⟩ := step_next_inv hstep
  obtain ⟨hw, rfl⟩ := exec_next_inv hexec
  exact State.inv_present_produce hs.responses hw

/-- Settles O17: the next state is `s.present` followed by `produce`, read field by field. -/
theorem operationFrame : Obligations.OperationFrame := by
  intro i s t hexec
  obtain ⟨_, rfl⟩ := exec_next_inv hexec
  refine ⟨?req, ?out, rfl, rfl, ?added, ?earlier⟩
  case req => exact fun k => Memory.read_ofBytes i.req k
  case out =>
    intro k hk
    rw [State.produce_out, Header.read_store]
    exact List.getElem?_eq_none hk
  case added => simp
  case earlier => exact fun k hk => List.getElem?_append_left hk

/-- Settles O41: placing the decoded operation and taking it again leaves the state. -/
theorem stepRunsDecodedWord : Obligations.StepRunsDecodedWord := by
  intro s nbits w i hdecode
  rw [State.withFetchWord_of_decodes hdecode, step_enqueue]

/-- Settles O42: every clause reads a field of the reset state. -/
theorem resetHoldsNothing : Obligations.ResetHoldsNothing :=
  ⟨Memory.read_nil, rfl, rfl, fun _ => rfl⟩

end Sys2Proof.Machine

namespace Sys2Proof.Machine

/-! ## Writes to different offsets (spec/20_memory.md R20, R28) -/

/-- Neither write sees the other, in canonical form or not: at the first listed offset that is not below
both, the lower write puts its byte before the higher one. -/
theorem Memory.write_comm_of_lt (m : Memory) {a b : Nat} (hab : a < b) (v w : Byte) :
    Memory.write (Memory.write m a v) b w = Memory.write (Memory.write m b w) a v := by
  induction m with
  | nil => simp [Memory.write, hab, hab.ne', hab.not_gt]
  | cons c m ih =>
    obtain ⟨k, x⟩ := c
    rcases Nat.lt_trichotomy a k with hak | rfl | hka
    · simp only [Memory.write, hak, hab.ne', hab.not_gt, if_true, if_false]
      split_ifs <;> simp [Memory.write, hak, hab]
    · simp [Memory.write, hab.ne', hab.not_gt]
    · have hkb : k < b := hka.trans hab
      simp [Memory.write, hka.ne', hka.not_gt, hkb.ne', hkb.not_gt, ih]

theorem Memory.write_comm (m : Memory) {a b : Nat} (hab : a ≠ b) (v w : Byte) :
    Memory.write (Memory.write m a v) b w = Memory.write (Memory.write m b w) a v := by
  rcases Nat.lt_or_gt_of_ne hab with hlt | hgt
  · exact Memory.write_comm_of_lt m hlt v w
  · exact (Memory.write_comm_of_lt m hgt w v).symm

/-- Two-byte writes that share no byte commute: each byte of one moves past both bytes of the other. -/
theorem Memory.writeWord_comm (m : Memory) {k l : Nat} (hkl : k + 2 ≤ l) (v w : Word16) :
    Memory.writeWord (Memory.writeWord m k v) l w = Memory.writeWord (Memory.writeWord m l w) k v := by
  have hpast (m : Memory) {c : Nat} (hc : c < l) (b : Byte) :
      Memory.writeWord (Memory.write m c b) l w = Memory.write (Memory.writeWord m l w) c b := by
    simp only [Memory.writeWord]
    rw [Memory.write_comm m (by omega), Memory.write_comm _ (by omega)]
  calc Memory.writeWord (Memory.writeWord m k v) l w
      = Memory.write (Memory.writeWord (Memory.write m k (v.extractLsb' 8 8)) l w) (k + 1)
          (v.extractLsb' 0 8) := hpast _ (by omega) _
    _ = Memory.writeWord (Memory.writeWord m l w) k v :=
      congrArg (Memory.write · (k + 1) _) (hpast m (by omega) _)

/-- R28: two-byte writes that can be listed with each one past the bytes of those before it share no byte,
and may be performed in any order. -/
theorem Memory.writeWords_perm {ws ws' : List (Nat × Word16)} (hperm : ws.Perm ws')
    (hrising : ws.Pairwise fun p q => p.1 + 2 ≤ q.1) (m : Memory) :
    Memory.writeWords m ws = Memory.writeWords m ws' := by
  have hcomm : ws.Pairwise fun p q => ∀ m : Memory,
      Memory.writeWord (Memory.writeWord m p.1 p.2) q.1 q.2 =
        Memory.writeWord (Memory.writeWord m q.1 q.2) p.1 p.2 :=
    hrising.imp fun hpq m => Memory.writeWord_comm m hpq _ _
  refine hperm.foldl_eq' (fun p hp q hq => ?_) m
  exact hcomm.forall_of_forall_of_flip (fun _ _ _ => rfl) (hcomm.imp fun h m => (h m).symm) hp hq

/-- R23: the six fields of a header stand two bytes apart. -/
theorem Header.fields_rising (h : Header) : h.fields.Pairwise fun p q => p.1 + 2 ≤ q.1 := by
  simp [Header.fields]

/-! ## The obligations of spec/20_memory.md -/

/-- Settles O20: the six fields share no byte, so their writes commute. -/
theorem writeOrderUnobservable : Obligations.WriteOrderUnobservable :=
  fun h _ hperm => (Memory.writeWords_perm hperm.symm h.fields_rising []).symm

/-- Settles O43: at reset both address spaces are empty and no header has been handed over. -/
theorem resetInv : Obligations.ResetInv where
  reqWf := List.Pairwise.nil
  outWf := List.Pairwise.nil
  responses := fun _ hh => absurd hh List.not_mem_nil
  outAgrees := .inl rfl

end Sys2Proof.Machine

namespace Sys2Proof.Machine

/-! ## The operation a word stands for (spec/30_encoding.md R50, R54) -/

@[simp] theorem rc4_toNat (rc : Nat) : (rc4 rc).toNat = rc % 16 := BitVec.toNat_ofNat rc 4

@[simp] theorem rc4_of_toNat (r : BitVec 4) : rc4 r.toNat = r := BitVec.ofNat_toNat 4 r

@[simp] theorem operationOf_zero (req : List Byte) : operationOf req 0#4 = .encodeHeaderDefault req :=
  if_pos rfl

theorem operationOf_of_ne_zero {r : BitVec 4} (hr : r ≠ 0) (req : List Byte) :
    operationOf req r = .encodeHeader req r.toNat :=
  if_neg hr

@[simp] theorem operationOf_req (req : List Byte) (r : BitVec 4) : (operationOf req r).req = req := by
  by_cases hr : r = 0
  · subst hr; rfl
  · rw [operationOf_of_ne_zero hr]; rfl

@[simp] theorem rc4_operationOf_rc (req : List Byte) (r : BitVec 4) :
    rc4 (operationOf req r).rc = r := by
  by_cases hr : r = 0
  · subst hr; rfl
  · rw [operationOf_of_ne_zero hr]; exact rc4_of_toNat r

/-- Clearing the ignored bits keeps the four bytes that are read and the low four bits of the code. -/
theorem canonical_eq_operationOf (i : Instr) :
    i.canonical = operationOf (usedBytes i.req) (rc4 i.rc) := by
  have hzero : rc4 i.rc = 0 ↔ i.rc % 16 = 0 := by rw [← rc4_toNat, BitVec.toNat_eq]; rfl
  simp only [Instr.canonical, operationOf, hzero, rc4_toNat]

/-- An operation on four used bytes and a code has no ignored bit set. -/
theorem operationOf_canonical (b0 b1 b4 b5 : Byte) (r : BitVec 4) :
    (operationOf [b0, b1, 0, 0, b4, b5] r).canonical = operationOf [b0, b1, 0, 0, b4, b5] r := by
  rw [canonical_eq_operationOf, operationOf_req, rc4_operationOf_rc]
  rfl

theorem canonical_idem (i : Instr) : i.canonical.canonical = i.canonical := by
  rw [canonical_eq_operationOf i]
  exact operationOf_canonical _ _ _ _ _

theorem canonical_wellFormed (i : Instr) : i.canonical.wellFormed = true := by
  rw [wellFormed_iff, canonical_eq_operationOf, operationOf_req]
  exact Nat.le_refl 6

/-! ## The encoder: an encoding holds the used bits alone (R44) -/

theorem encode_operationOf (b0 b1 b4 b5 : Byte) (r : BitVec 4) :
    encode (operationOf [b0, b1, 0, 0, b4, b5] r) =
      [b0, b1, 0x80, r.setWidth 8, b4, b5, 0, 0, 0, 0, 0, 0] := by
  have hcode : BitVec.ofNat Config.rcodeBits (operationOf [b0, b1, 0, 0, b4, b5] r).rc = r :=
    rc4_operationOf_rc _ r
  rw [encode, operationOf_req, hcode]
  rfl

theorem encode_canonical (i : Instr) : encode i.canonical = encode i := by
  rw [canonical_eq_operationOf]
  exact encode_operationOf _ _ _ _ _

/-! ## The decoder (R44, R51, R54) -/

/-- Flags byte 2 is accepted exactly when it is QR and seven zeros. -/
theorem flagsByte2_iff (b : Byte) :
    (b.extractLsb' 7 1 ≠ 0 ∧ b.extractLsb' 0 7 = 0) ↔ b = 0x80 := by
  revert b; decide

/-- Flags byte 3 is accepted exactly when it is four zeros and the code. -/
theorem flagsByte3_iff (b : Byte) :
    b.extractLsb' 4 4 = 0 ↔ b = (b.extractLsb' 0 4).setWidth 8 := by
  revert b; decide

theorem decode_response (b0 b1 b4 b5 : Byte) (r : BitVec 4) (rest : List Byte) :
    decode ([b0, b1, 0x80, r.setWidth 8, b4, b5, 0, 0, 0, 0, 0, 0] ++ rest) =
      .ok (operationOf [b0, b1, 0, 0, b4, b5] r) rest := by
  have hlow : (r.setWidth 8).extractLsb' 0 4 = r := by revert r; decide
  have hhigh : (r.setWidth 8).extractLsb' 4 4 = 0 := by revert r; decide
  simp [decode, hlow, hhigh]

/-- Inversion: what decodes begins with the twelve bytes of its operation. -/
theorem decode_ok_inv {bytes rest : List Byte} {i : Instr} (h : decode bytes = .ok i rest) :
    ∃ b0 b1 b4 b5 r, bytes = [b0, b1, 0x80, r.setWidth 8, b4, b5, 0, 0, 0, 0, 0, 0] ++ rest ∧
      i = operationOf [b0, b1, 0, 0, b4, b5] r := by
  unfold decode at h
  split at h
  case h_2 => cases h
  case h_1 b0 b1 b2 b3 b4 b5 b6 b7 b8 b9 b10 b11 tail =>
    split_ifs at h with hquery hforced hcounts
    cases h
    obtain ⟨hlow2, hhigh3⟩ := not_or.mp hforced
    have h2 : b2 = 0x80 := (flagsByte2_iff b2).mp ⟨hquery, not_not.mp hlow2⟩
    have h3 : b3 = (b3.extractLsb' 0 4).setWidth 8 := (flagsByte3_iff b3).mp (not_not.mp hhigh3)
    have hzeros : [b6, b7, b8, b9, b10, b11] = [0, 0, 0, 0, 0, 0] := not_not.mp hcounts
    refine ⟨b0, b1, b4, b5, b3.extractLsb' 0 4, ?_, rfl⟩
    rw [← h2, ← h3]
    simpa using hzeros

/-- The decoder reads back exactly the encodings of operations with no ignored bit set. -/
theorem decode_eq_ok_iff {bytes rest : List Byte} {i : Instr} :
    decode bytes = .ok i rest ↔ bytes = encode i ++ rest ∧ i.canonical = i := by
  constructor
  · intro h
    obtain ⟨b0, b1, b4, b5, r, rfl, rfl⟩ := decode_ok_inv h
    exact ⟨by rw [encode_operationOf], operationOf_canonical _ _ _ _ _⟩
  · rintro ⟨rfl, hcan⟩
    have h := decode_response (byteOrZero i.req 0) (byteOrZero i.req 1) (byteOrZero i.req 4)
      (byteOrZero i.req 5) (rc4 i.rc) rest
    rwa [← usedBytes, ← canonical_eq_operationOf, hcan] at h

/-! ## A word of the opcode table as bytes and as a header (R6, R40, R42) -/

theorem vecBytes_length (v : BitVec 96) : (vecBytes v).length = 12 := by simp [vecBytes]

theorem vecBytes_getElem? (v : BitVec 96) {k : Nat} (hk : k < 12) :
    (vecBytes v)[k]? = some (v.extractLsb' (88 - 8 * k) 8) := by
  simp [vecBytes, hk]

theorem vecBytes_toVec (h : Header) : vecBytes h.toVec = h.toBytes := by
  refine List.ext_getElem? fun k => ?_
  by_cases hk : k < 12
  · rw [vecBytes_getElem? _ hk, h.getElem?_toBytes hk]
  · rw [List.getElem?_eq_none (by rw [vecBytes_length]; omega),
      List.getElem?_eq_none (by rw [h.toBytes_length]; omega)]

/-- Every bit of a word stands in one of its twelve bytes. -/
theorem vecBytes_injective : Function.Injective vecBytes := by
  intro v w hvw
  refine BitVec.eq_of_getLsbD_eq fun n hn => ?_
  have hk : 11 - n / 8 < 12 := by omega
  have hbyte : v.extractLsb' (88 - 8 * (11 - n / 8)) 8 = w.extractLsb' (88 - 8 * (11 - n / 8)) 8 := by
    rw [← Option.some_inj, ← vecBytes_getElem? v hk, ← vecBytes_getElem? w hk, hvw]
  have hpos : 88 - 8 * (11 - n / 8) + n % 8 = n := by omega
  have hbit := congrArg (BitVec.getLsbD · (n % 8)) hbyte
  simpa [BitVec.getLsbD_extractLsb', hpos, Nat.mod_lt] using hbit

/-- R40: the encoding of an operation is the byte string of its header. -/
theorem encode_eq_toBytes (i : Instr) : encode i = (instrHeader i).toBytes := by
  have hcode : (BitVec.ofNat 4 i.rc).setWidth 8 = BitVec.ofNat 8 (i.rc % 16) := by
    rw [← BitVec.toNat_ofNat i.rc 4, BitVec.ofNat_toNat]
  rw [instrHeader, headerOf_toBytes, ← hcode]
  rfl

theorem encode_eq_vecBytes (i : Instr) : encode i = vecBytes (instrHeader i).toVec := by
  rw [vecBytes_toVec, encode_eq_toBytes]

/-! ## The words of a row of the opcode table (R44, R47) -/

theorem accepts_iff (r : TableRow) (v : BitVec 96) :
    r.accepts v = true ↔ v &&& r.mask = r.pattern :=
  beq_iff_eq

/-- A slice that the mask of a row covers is that of the row's match. -/
theorem extractLsb'_of_accepts {r : TableRow} {v : BitVec 96} (h : r.accepts v = true)
    {start len : Nat} (hmask : r.mask.extractLsb' start len = BitVec.allOnes len) :
    v.extractLsb' start len = r.pattern.extractLsb' start len := by
  rw [← (accepts_iff r v).mp h, BitVec.extractLsb'_and, hmask, BitVec.and_allOnes]

/-- A word is its fields of R44 put together: ID, QR, the forced flag bits, RCODE, QDCOUNT, the counts. -/
theorem eq_append_fields (v : BitVec 96) :
    v = v.extractLsb' 80 16 ++ v.extractLsb' 79 1 ++ v.extractLsb' 68 11 ++ v.extractLsb' 64 4 ++
      v.extractLsb' 48 16 ++ v.extractLsb' 0 48 := by
  have join (a b n : Nat) {m : Nat} (hab : a = b + n) :
      v.extractLsb' a m ++ v.extractLsb' b n = v.extractLsb' b (m + n) :=
    BitVec.extractLsb'_append_extractLsb'_eq_extractLsb' hab
  rw [join 80 79 1 rfl, join 79 68 11 rfl, join 68 64 4 rfl, join 64 48 16 rfl, join 48 0 48 rfl]
  exact BitVec.extractLsb'_eq_self.symm

/-- R44: what the row ENCODE_HEADER fixes is QR, the eleven forced zeros and the three counts. -/
theorem eq_append_of_accepts {v : BitVec 96} (h : rowEncodeHeader.accepts v = true) :
    v = v.extractLsb' 80 16 ++ 1#1 ++ 0#11 ++ v.extractLsb' 64 4 ++ v.extractLsb' 48 16 ++ 0#48 := by
  have hqr : v.extractLsb' 79 1 = 1#1 := extractLsb'_of_accepts h (by decide)
  have hforced : v.extractLsb' 68 11 = 0#11 := extractLsb'_of_accepts h (by decide)
  have hcounts : v.extractLsb' 0 48 = 0#48 := extractLsb'_of_accepts h (by decide)
  rw [← hqr, ← hforced, ← hcounts]
  exact eq_append_fields v

/-- The mask of the default form's row, field by field. -/
theorem rowEncodeHeaderDefault_mask_eq_append :
    rowEncodeHeaderDefault.mask = 0#16 ++ 1#1 ++ 0x7FF#11 ++ 0xF#4 ++ 0#16 ++ BitVec.allOnes 48 := by
  decide

/-- R47: the default form's row fixes the code at zero besides. -/
theorem rowEncodeHeaderDefault_accepts_iff (v : BitVec 96) :
    rowEncodeHeaderDefault.accepts v = true ↔
      rowEncodeHeader.accepts v = true ∧ v.extractLsb' 64 4 = 0 := by
  constructor
  · intro h
    have hmask : rowEncodeHeaderDefault.mask &&& rowEncodeHeader.mask = rowEncodeHeader.mask := by decide
    refine ⟨(accepts_iff _ v).mpr ?_, extractLsb'_of_accepts h (by decide)⟩
    rw [← hmask, ← BitVec.and_assoc, (accepts_iff _ v).mp h]
    decide
  · rintro ⟨h, hcode⟩
    have hfields (id qd : Word16) : (id ++ 1#1 ++ 0#11 ++ 0#4 ++ qd ++ 0#48) &&&
        (0#16 ++ 1#1 ++ 0x7FF#11 ++ 0xF#4 ++ 0#16 ++ BitVec.allOnes 48) =
        0#16 ++ 1#1 ++ 0#11 ++ 0#4 ++ 0#16 ++ 0#48 := by
      simp only [BitVec.and_append, BitVec.and_zero, BitVec.zero_and, BitVec.and_self]
    rw [accepts_iff, eq_append_of_accepts h, hcode, rowEncodeHeaderDefault_mask_eq_append]
    exact hfields _ _

/-! ## The operation that a word names (R54) -/

/-- The operation whose operands R54 reads out of a word, with zeros in the ignored positions. -/
def wordOperation (v : BitVec 96) : Instr :=
  operationOf [v.extractLsb' 88 8, v.extractLsb' 80 8, 0, 0, v.extractLsb' 56 8, v.extractLsb' 48 8]
    (v.extractLsb' 64 4)

theorem wordOperation_canonical (v : BitVec 96) : (wordOperation v).canonical = wordOperation v :=
  operationOf_canonical _ _ _ _ _

theorem wordOperation_wellFormed (v : BitVec 96) : (wordOperation v).wellFormed = true :=
  wordOperation_canonical v ▸ canonical_wellFormed (wordOperation v)

/-- R54: the operands read out of a word of the row give its header, whatever stands in the ignored
positions. -/
theorem headerOf_toVec_of_accepts {v : BitVec 96} (h : rowEncodeHeader.accepts v = true) {rc : Nat}
    (hrc : rc4 rc = v.extractLsb' 64 4) (b2 b3 : Byte) (rest : List Byte) :
    (headerOf (v.extractLsb' 88 8 :: v.extractLsb' 80 8 :: b2 :: b3 ::
      v.extractLsb' 56 8 :: v.extractLsb' 48 8 :: rest) rc).toVec = v := by
  have hid : v.extractLsb' 88 8 ++ v.extractLsb' 80 8 = v.extractLsb' 80 16 :=
    BitVec.extractLsb'_append_extractLsb'_eq_extractLsb' rfl
  have hqd : v.extractLsb' 56 8 ++ v.extractLsb' 48 8 = v.extractLsb' 48 16 :=
    BitVec.extractLsb'_append_extractLsb'_eq_extractLsb' rfl
  rw [headerOf, responseHeader_toVec, hrc]
  simp only [byteOrZero, List.getD_cons_zero, List.getD_cons_succ, hid, hqd]
  exact (eq_append_of_accepts h).symm

theorem wordOperation_toVec {v : BitVec 96} (h : rowEncodeHeader.accepts v = true) :
    (instrHeader (wordOperation v)).toVec = v := by
  rw [instrHeader, wordOperation, operationOf_req]
  exact headerOf_toVec_of_accepts h (rc4_operationOf_rc _ _) 0 0 []

theorem decode_vecBytes_of_accepts {v : BitVec 96} (h : rowEncodeHeader.accepts v = true) :
    decode (vecBytes v) = .ok (wordOperation v) [] := by
  refine decode_eq_ok_iff.mpr ⟨?_, wordOperation_canonical v⟩
  rw [encode_eq_vecBytes, wordOperation_toVec h, List.append_nil]

/-- A word that decodes is the header of its operation, so it is in the row. -/
theorem accepts_of_decode_vecBytes {v : BitVec 96} {i : Instr} {rest : List Byte}
    (h : decode (vecBytes v) = .ok i rest) : rowEncodeHeader.accepts v = true := by
  obtain ⟨hbytes, _⟩ := decode_eq_ok_iff.mp h
  have hrest : rest = [] := by
    have hlen := congrArg List.length hbytes
    simpa [encode_eq_vecBytes, vecBytes_length] using hlen
  rw [hrest, List.append_nil, encode_eq_vecBytes] at hbytes
  exact vecBytes_injective hbytes ▸ instrHeader_isResponse i

/-- The words that decode are those of the row ENCODE_HEADER, and each decodes to the operation it names. -/
theorem decode_vecBytes_iff {v : BitVec 96} {i : Instr} {rest : List Byte} :
    decode (vecBytes v) = .ok i rest ↔
      rowEncodeHeader.accepts v = true ∧ wordOperation v = i ∧ [] = rest := by
  constructor
  · intro h
    have hacc := accepts_of_decode_vecBytes h
    rw [decode_vecBytes_of_accepts hacc] at h
    exact ⟨hacc, Decoded.ok.inj h⟩
  · rintro ⟨h, rfl, rfl⟩
    exact decode_vecBytes_of_accepts h

theorem wordOperation_eq_default_iff (v : BitVec 96) :
    (∃ req, wordOperation v = .encodeHeaderDefault req) ↔ v.extractLsb' 64 4 = 0 := by
  by_cases hcode : v.extractLsb' 64 4 = 0
  · exact iff_of_true ⟨_, by rw [wordOperation, hcode]; exact operationOf_zero _⟩ hcode
  · refine iff_of_false ?_ hcode
    rw [wordOperation, operationOf_of_ne_zero hcode]
    rintro ⟨req, h⟩
    cases h

/-! ## The operation and the block that goes on (R65, R106, R108) -/

theorem exec_of_wellFormed {i : Instr} (hw : i.wellFormed = true) (s : State) :
    exec i s = .next ((s.present i.req i.rc).produce (instrHeader i)) := by
  rw [exec_eq_op]
  exact encodeHeaderOp_next ((wellFormed_iff i).mp hw) _ _

/-- A fault leaves OUT empty and hands over no header, so the invariant rests on the earlier ones. -/
theorem State.inv_afterFault {s : State} {i : Instr} (hs : ∀ h ∈ s.headers, h.IsResponse) :
    (s.afterFault i).Inv where
  reqWf := Memory.ofBytes_wf i.req
  outWf := List.Pairwise.nil
  responses := hs
  outAgrees := .inl rfl

/-! ## The obligations of spec/30_encoding.md -/

/-- Settles O34: `i.canonical` has the encoding of `i` and no ignored bit set, so it is what is read back. -/
theorem decodeEncode : Obligations.DecodeEncode := by
  intro i rest _
  have hdecode : decode (encode i ++ rest) = .ok i.canonical rest :=
    decode_eq_ok_iff.mpr ⟨by rw [encode_canonical], canonical_idem i⟩
  exact ⟨hdecode, encode_canonical i, canonical_idem i⟩

/-- Settles O35: these operations have no ignored bit set. -/
theorem decodeEncodeOperands : Obligations.DecodeEncodeOperands := by
  intro b0 b1 b4 b5 r rest
  have hdecode (r : BitVec 4) :
      decode (encode (operationOf [b0, b1, 0, 0, b4, b5] r) ++ rest) =
        .ok (operationOf [b0, b1, 0, 0, b4, b5] r) rest :=
    decode_eq_ok_iff.mpr ⟨rfl, operationOf_canonical b0 b1 b4 b5 r⟩
  refine ⟨fun hr => ?_, by simpa using hdecode 0⟩
  simpa [operationOf_of_ne_zero hr] using hdecode r

/-- Settles O36: an operation with no ignored bit set is well-formed. -/
theorem encodeDecode : Obligations.EncodeDecode := by
  intro bytes rest i h
  obtain ⟨hbytes, hcan⟩ := decode_eq_ok_iff.mp h
  exact ⟨hbytes, hcan ▸ canonical_wellFormed i, hcan⟩

/-- Settles O37: a word decodes to the operation it names, in the default form where its code is zero. -/
theorem decodeFollowsTable : Obligations.DecodeFollowsTable := by
  refine fun v => ⟨?row, ?defaultRow⟩
  case row =>
    show _ ↔ v &&& rowEncodeHeader.mask = rowEncodeHeader.pattern
    rw [← accepts_iff]
    simp [decode_vecBytes_iff]
  case defaultRow =>
    show _ ↔ v &&& rowEncodeHeaderDefault.mask = rowEncodeHeaderDefault.pattern
    rw [← accepts_iff, rowEncodeHeaderDefault_accepts_iff, ← wordOperation_eq_default_iff]
    simp [decode_vecBytes_iff]

/-- Settles O38: the header handed over has the bytes of the encoding. -/
theorem encodingIsTheResult : Obligations.EncodingIsTheResult := by
  intro i s hlen
  refine ⟨_, exec_of_wellFormed ((wellFormed_iff i).mpr hlen) s, ?_⟩
  rw [encode_eq_toBytes]
  exact s.delivers_produce i.req i.rc (instrHeader i)

/-- Settles O39: a header fits RESP_HDR, and a word that fits is the header of the operation it names. -/
theorem producibleHeaders : Obligations.ProducibleHeaders := by
  refine ⟨fun v => ⟨fun hfit => ?named, ?fits⟩, fun v b2 b3 rest rc s hfit hrc => ?operands⟩
  case named =>
    have hacc : rowEncodeHeader.accepts v = true := (accepts_iff _ v).mpr hfit
    exact ⟨_, State.reset, _, _, exec_of_wellFormed (wordOperation_wellFormed v) _, rfl,
      wordOperation_toVec hacc⟩
  case fits =>
    rintro ⟨i, s, t, h, hexec, hheaders, rfl⟩
    obtain ⟨_, rfl⟩ := exec_next_inv hexec
    have hh : instrHeader i = h := by simpa using hheaders
    exact (accepts_iff _ _).mp (hh ▸ instrHeader_isResponse i)
  case operands =>
    have hcode : rc4 rc = v.extractLsb' 64 4 := BitVec.eq_of_toNat_eq (by rw [rc4_toNat, hrc])
    exact ⟨_, _, exec_of_wellFormed (by simp [wellFormed_iff, Instr.req]) s, rfl,
      headerOf_toVec_of_accepts ((accepts_iff _ v).mpr hfit) hcode b2 b3 rest⟩

/-- Settles O45: a header leaves the state that `step` leaves, a fault an empty OUT. -/
theorem stepOnKeepsInv : Obligations.StepOnKeepsInv := by
  intro s t hs hstep
  cases htodo : s.todo with
  | nil => simp [stepOn, s.takeOperation_nil htodo] at hstep
  | cons i rest =>
    rcases stepOn_cons htodo with ⟨hw, hnext⟩ | ⟨_, hnext⟩
    · cases hnext.symm.trans hstep
      exact State.inv_present_produce hs.responses hw
    · cases hnext.symm.trans hstep
      exact State.inv_afterFault hs.responses

/-- Settles O18: bit 15 and the four code bits do not overlap. -/
theorem flagsWordIsSum : Obligations.FlagsWordIsSum := by
  intro rc
  have hsum : ∀ r : BitVec 4, (0x8000#16 ||| r.setWidth 16).toNat = 0x8000 + r.toNat := by decide
  refine ⟨rfl, ?sum, flagsWord_high_byte rc, ?low⟩
  case sum => rw [← rc4_toNat]; exact hsum (rc4 rc)
  case low =>
    rw [flagsWord_low_byte, ← rc4_toNat, BitVec.ofNat_toNat]
    rfl

/-- Settles O33: each word is laid out in its twelve bytes and read by the decoder. -/
theorem wordsDecode : Obligations.WordsDecode :=
  ⟨by decide, by decide, by decide, by decide⟩

end Sys2Proof.Machine

namespace Sys2Proof.Machine

/-! ## A header is determined by its bytes, and so by OUT (spec/20_memory.md R22, R24) -/

theorem Word16.eq_of_bytes {v w : Word16} (hhi : v.extractLsb' 8 8 = w.extractLsb' 8 8)
    (hlo : v.extractLsb' 0 8 = w.extractLsb' 0 8) : v = w := by
  have hjoin (x : Word16) : x.extractLsb' 8 8 ++ x.extractLsb' 0 8 = x :=
    (BitVec.extractLsb'_append_extractLsb'_eq_extractLsb' rfl).trans BitVec.extractLsb'_eq_self
  rw [← hjoin v, ← hjoin w, hhi, hlo]

theorem Header.toBytes_injective : Function.Injective Header.toBytes := by
  rintro ⟨id, flags, qd, an, ns, ar⟩ ⟨id', flags', qd', an', ns', ar'⟩ heq
  simp only [Header.toBytes, Header.fields, List.flatMap_cons, List.flatMap_nil, List.cons_append,
    List.nil_append, List.cons.injEq, and_true] at heq
  obtain ⟨i1, i0, f1, f0, q1, q0, a1, a0, n1, n0, r1, r0⟩ := heq
  rw [Word16.eq_of_bytes i1 i0, Word16.eq_of_bytes f1 f0, Word16.eq_of_bytes q1 q0,
    Word16.eq_of_bytes a1 a0, Word16.eq_of_bytes n1 n0, Word16.eq_of_bytes r1 r0]

theorem Header.store_injective : Function.Injective Header.store := fun h h' heq =>
  Header.toBytes_injective <| List.ext_getElem? fun k => by
    rw [← Header.read_store, ← Header.read_store, heq]

/-! ## The used bits of the operands (spec/30_encoding.md R50, spec/40_encode_header.md R77) -/

theorem getElem?_eq_byteOrZero {req : List Byte} {k : Nat} (hk : k < req.length) :
    req[k]? = some (byteOrZero req k) := by
  simp [byteOrZero, hk]

/-- R45: the flags word reads the code through its low four bits. -/
theorem flagsWord_congr {rc rc' : Nat} (h : rc % 16 = rc' % 16) : flagsWord rc = flagsWord rc' := by
  have hcode : rc4 rc = rc4 rc' := BitVec.eq_of_toNat_eq (by simpa using h)
  rw [flagsWord, flagsWord, hcode]

/-- R77(a), R77(c): headers are equal exactly when the used bits of their operands are. -/
theorem headerOf_eq_iff {req req' : List Byte} {rc rc' : Nat} :
    headerOf req rc = headerOf req' rc' ↔
      byteOrZero req 0 = byteOrZero req' 0 ∧ byteOrZero req 1 = byteOrZero req' 1 ∧
      byteOrZero req 4 = byteOrZero req' 4 ∧ byteOrZero req 5 = byteOrZero req' 5 ∧
      rc % 16 = rc' % 16 := by
  constructor
  · intro h
    have hbytes := congrArg Header.toBytes h
    simp only [headerOf_toBytes, List.cons.injEq, and_true, true_and] at hbytes
    obtain ⟨h0, h1, hcode, h4, h5⟩ := hbytes
    have hmod := congrArg BitVec.toNat hcode
    simp only [BitVec.toNat_ofNat] at hmod
    exact ⟨h0, h1, h4, h5, by omega⟩
  · rintro ⟨h0, h1, h4, h5, hcode⟩
    simp only [headerOf, responseHeader, h0, h1, h4, h5, flagsWord_congr hcode]

/-- The same for two well-formed operations, whose used bytes all exist. -/
theorem instrHeader_eq_iff {i j : Instr} (hi : 6 ≤ i.req.length) (hj : 6 ≤ j.req.length) :
    instrHeader i = instrHeader j ↔
      i.req[0]? = j.req[0]? ∧ i.req[1]? = j.req[1]? ∧ i.req[4]? = j.req[4]? ∧
      i.req[5]? = j.req[5]? ∧ i.rc % 16 = j.rc % 16 := by
  have hbyte (k : Nat) (hk : k < 6) :
      i.req[k]? = j.req[k]? ↔ byteOrZero i.req k = byteOrZero j.req k := by
    rw [getElem?_eq_byteOrZero (by omega), getElem?_eq_byteOrZero (by omega), Option.some_inj]
  rw [hbyte 0 (by decide), hbyte 1 (by decide), hbyte 4 (by decide), hbyte 5 (by decide)]
  exact headerOf_eq_iff

/-! ## The operation on a request of six bytes or more, and on a shorter one (R65, R66) -/

theorem exec_of_length {i : Instr} (hlen : 6 ≤ i.req.length) (s : State) :
    exec i s = .next ((s.present i.req i.rc).produce (instrHeader i)) :=
  exec_of_wellFormed ((wellFormed_iff i).mpr hlen) s

theorem exec_of_short {i : Instr} (hlen : i.req.length < 6) (s : State) :
    exec i s = .fault (.undersizedRequest i.req.length) := by
  rw [exec_eq_op, encodeHeaderOp_short hlen]

/-- R18, R65: what an operation hands over, in OUT and to the caller, is the header of its operands. -/
theorem exec_hands_over {i : Instr} (hlen : 6 ≤ i.req.length) (s : State) :
    ∃ t, exec i s = .next t ∧ t.out = Header.store (instrHeader i) ∧
      t.headers = s.headers ++ [instrHeader i] :=
  ⟨_, exec_of_length hlen s, State.produce_out _ _, State.produce_headers _ _⟩

/-- R22, R40: OUT reads as the encoding of the operation. -/
theorem exec_read_out {i : Instr} (hlen : 6 ≤ i.req.length) (s : State) :
    ∃ t, exec i s = .next t ∧ ∀ k, Memory.read t.out k = (encode i)[k]? := by
  obtain ⟨t, hexec, hread, _⟩ := encodingIsTheResult i s hlen
  exact ⟨t, hexec, hread⟩

/-- R61, R63: the four request bytes that an operation copies keep their offsets. -/
theorem encode_getElem?_of_copied {i : Instr} (hlen : 6 ≤ i.req.length) {k : Nat}
    (hk : k = 0 ∨ k = 1 ∨ k = 4 ∨ k = 5) : (encode i)[k]? = i.req[k]? := by
  rw [getElem?_eq_byteOrZero (req := i.req) (by omega)]
  rcases hk with rfl | rfl | rfl | rfl <;> rfl

/-- R67, R77(a): operations of one request length and with equal headers have one result from a state. -/
theorem exec_sameResult {i j : Instr} (hlen : i.req.length = j.req.length)
    (hheader : 6 ≤ i.req.length → instrHeader i = instrHeader j) (s : State) :
    SameResult (exec i s) (exec j s) := by
  rcases Nat.lt_or_ge i.req.length 6 with hi | hi
  · rw [exec_of_short hi, exec_of_short (hlen ▸ hi)]
    exact congrArg Fault.undersizedRequest hlen
  · rw [exec_of_length hi, exec_of_length (hlen ▸ hi), hheader hi]
    exact ⟨rfl, rfl⟩

/-- R71: the closed form as bytes. -/
theorem State.delivers_headerOf (s : State) (req : List Byte) (rc : Nat) :
    s.Delivers ((s.present req rc).produce (headerOf req rc))
      [byteOrZero req 0, byteOrZero req 1, 0x80, BitVec.ofNat 8 (rc % 16),
        byteOrZero req 4, byteOrZero req 5, 0, 0, 0, 0, 0, 0] := by
  rw [← headerOf_toBytes]
  exact s.delivers_produce req rc _

/-! ## The flags word in OUT, and the closed form as a vector (R62, R71) -/

theorem flagsWord_eq_or (rc : Nat) : flagsWord rc = 0x8000 ||| BitVec.ofNat 16 (rc &&& 0xF) := by
  have hcode : (rc4 rc).setWidth 16 = BitVec.ofNat 16 (rc &&& 0xF) := by
    rw [Nat.and_two_pow_sub_one_eq_mod rc 4, ← BitVec.ofNat_toNat, rc4_toNat]
  rw [← hcode]
  rfl

/-- R43, R62: the fields of the flags word, at the positions the model presumes (log entry 14). -/
theorem flagsWord_fields (rc : Nat) :
    flagQR (flagsWord rc) = 1 ∧ flagOpcode (flagsWord rc) = 0 ∧ flagAA (flagsWord rc) = 0 ∧
      flagTC (flagsWord rc) = 0 ∧ flagRD (flagsWord rc) = 0 ∧ flagRA (flagsWord rc) = 0 ∧
      flagZ (flagsWord rc) = 0 ∧ flagRcode (flagsWord rc) = rc4 rc := by
  unfold flagsWord
  generalize rc4 rc = r
  revert r
  decide

/-- R24: a big-endian word of two bytes that are read. -/
theorem Memory.readWord_of_read {m : Memory} {k : Nat} {w : Word16}
    (hhi : Memory.read m k = some (w.extractLsb' 8 8))
    (hlo : Memory.read m (k + 1) = some (w.extractLsb' 0 8)) : Memory.readWord m k = some w := by
  rw [Memory.readWord, hhi, hlo]
  exact congrArg some (Word16.eq_of_bytes (extractLsb_append_hi _ _) (extractLsb_append_lo _ _))

/-- R71: the closed form as a vector, the flags word as its bytes `0x80` and `{0000, rc[3:0]}`. -/
theorem headerOf_toVec (req : List Byte) (rc : Nat) :
    (headerOf req rc).toVec = byteOrZero req 0 ++ byteOrZero req 1 ++ 0x80#8 ++ 0#4 ++ rc4 rc ++
      byteOrZero req 4 ++ byteOrZero req 5 ++ 0#48 := by
  have hflags : 1#1 ++ 0#11 = 0x80#8 ++ 0#4 := by decide
  have hid (id : Word16) : id ++ 1#1 ++ 0#11 = id ++ 0x80#8 ++ 0#4 := by
    rw [BitVec.append_assoc, BitVec.append_assoc, hflags]
  rw [headerOf, responseHeader_toVec, hid]
  simp only [BitVec.append_assoc, BitVec.cast_eq]

/-! ## Runs (spec/70_reset_and_hazards.md R123, R130) -/

theorem step_of_wellFormed {s : State} {i : Instr} {rest : List Instr} (htodo : s.todo = i :: rest)
    (hw : i.wellFormed = true) :
    step s = .next (({ s with todo := rest }.present i.req i.rc).produce (instrHeader i)) := by
  rw [(stepPerformsNextOperation s).1 i rest htodo, exec_of_wellFormed hw]

/-- R65, R123: a run over operations that are all well-formed hands over their encodings. -/
theorem core_run_todo {todo : List Instr} {s : State} (htodo : s.todo = todo)
    (hduty : ∀ i ∈ todo, i.wellFormed = true) :
    ∃ t : State, Sys2Proof.core.run todo.length s = .next t ∧ t.todo = [] ∧
      t.headers.map Header.toBytes = s.headers.map Header.toBytes ++ todo.map encode := by
  induction todo generalizing s with
  | nil => exact ⟨s, rfl, htodo, by simp⟩
  | cons i rest ih =>
    obtain ⟨hw, hduty⟩ := List.forall_mem_cons.mp hduty
    obtain ⟨t, hrun, hdone, hheaders⟩ :=
      ih (s := ({ s with todo := rest }.present i.req i.rc).produce (instrHeader i)) rfl hduty
    refine ⟨t, (core_run_succ (step_of_wellFormed htodo hw) _).trans hrun, hdone, ?_⟩
    simpa [encode_eq_toBytes] using hheaders

/-- R108: a run of the block that goes on hands over the encodings of the well-formed operations. -/
theorem resumeCore_run_todo {todo : List Instr} {s : State} (htodo : s.todo = todo) :
    ∃ t : State, resumeCore.run todo.length s = .next t ∧ t.todo = [] ∧
      t.headers.map Header.toBytes =
        s.headers.map Header.toBytes ++ (todo.filter fun i => i.wellFormed).map encode := by
  induction todo generalizing s with
  | nil => exact ⟨s, rfl, htodo, by simp⟩
  | cons i rest ih =>
    rcases stepOn_cons htodo with ⟨hw, hstep⟩ | ⟨hw, hstep⟩
    · obtain ⟨t, hrun, hdone, hheaders⟩ :=
        ih (s := ({ s with todo := rest }.present i.req i.rc).produce (instrHeader i)) rfl
      refine ⟨t, (resumeCore_run_succ hstep _).trans hrun, hdone, ?_⟩
      simpa [hw, encode_eq_toBytes] using hheaders
    · obtain ⟨t, hrun, hdone, hheaders⟩ := ih (s := ({ s with todo := rest } : State).afterFault i) rfl
      refine ⟨t, (resumeCore_run_succ hstep _).trans hrun, hdone, ?_⟩
      simpa [hw] using hheaders

/-! ## The obligations of spec/40_encode_header.md -/

/-- Settles O1: the header handed over is `headerOf`, whose bytes and vector are known. -/
theorem encodeHeaderClosedForm : Obligations.EncodeHeaderClosedForm := by
  intro b0 b1 b2 b3 b4 b5 rest rc s
  exact ⟨_, _, exec_of_length (by simp [Instr.req]) s, s.delivers_headerOf _ rc, rfl,
    headerOf_toVec _ rc⟩

/-- Settles O2: both forms are one operation, and its encoding with code 0 is read off. -/
theorem defaultFormIsCodeZero : Obligations.DefaultFormIsCodeZero := by
  refine ⟨fun req s => ?_, fun b0 b1 b2 b3 b4 b5 rest s => ?_⟩
  · rw [exec_eq_op, exec_eq_op]
    rfl
  · exact encodingIsTheResult (.encodeHeaderDefault (b0 :: b1 :: b2 :: b3 :: b4 :: b5 :: rest)) s
      (by simp [Instr.req])

/-- Settles O3: the encoding begins with request bytes 0 and 1. -/
theorem idCopied : Obligations.IdCopied := by
  intro i s hlen
  obtain ⟨t, hexec, hread⟩ := exec_read_out hlen s
  exact ⟨t, hexec, (hread _).trans (encode_getElem?_of_copied hlen (by decide)),
    (hread _).trans (encode_getElem?_of_copied hlen (by decide))⟩

/-- Settles O4: bytes 2 and 3 of the encoding are those of the flags word. -/
theorem flagsWordWritten : Obligations.FlagsWordWritten := by
  intro i s hlen
  obtain ⟨t, hexec, hread⟩ := exec_read_out hlen s
  obtain ⟨_, _, hhi, hlo⟩ := flagsWordIsSum i.rc
  have hword : Memory.readWord t.out 2 = some (flagsWord i.rc) :=
    Memory.readWord_of_read (by rw [hread, hhi]; rfl) (by rw [hread, hlo]; rfl)
  exact ⟨t, _, hexec, hread 2, hread 3, hword, flagsWord_eq_or i.rc, flagsWord_fields i.rc⟩

/-- Settles O5: bytes 4 and 5 of the encoding are request bytes 4 and 5. -/
theorem qdcountCopied : Obligations.QdcountCopied := by
  intro i s hlen
  obtain ⟨t, hexec, hread⟩ := exec_read_out hlen s
  exact ⟨t, hexec, (hread _).trans (encode_getElem?_of_copied hlen (by decide)),
    (hread _).trans (encode_getElem?_of_copied hlen (by decide))⟩

/-- Settles O6: the last six bytes of the encoding are zero. -/
theorem recordCountsZero : Obligations.RecordCountsZero := by
  intro i s hlen
  obtain ⟨t, hexec, hread⟩ := exec_read_out hlen s
  refine ⟨t, hexec, fun k hk hk' => (hread k).trans ?_⟩
  interval_cases k <;> rfl

/-- Settles O7: the bytes delivered are the encoding, which is twelve bytes long. -/
theorem twelveBytesOrFault : Obligations.TwelveBytesOrFault := by
  intro i s
  rcases Nat.lt_or_ge i.req.length 6 with hlen | hlen
  · exact .inr (exec_of_short hlen s)
  · obtain ⟨t, hexec, hread, hhanded⟩ := encodingIsTheResult i s hlen
    have hlength : (encode i).length = 12 := rfl
    exact .inl ⟨t, encode i, hexec, ⟨hread, hhanded⟩, hlength, fun k => by simp [hread k, hlength]⟩

/-- Settles O8: an operation that answers a next state was well-formed, and every such one answers. -/
theorem succeedsExactlyFromSixBytes : Obligations.SucceedsExactlyFromSixBytes := by
  refine fun i s => ⟨?_, fun hlen => ⟨_, exec_of_length hlen s⟩⟩
  rintro ⟨t, hexec⟩
  exact (wellFormed_iff i).mp (exec_next_inv hexec).1

/-- Settles O9: the header reads the code modulo 16. -/
theorem responseCodeTruncated : Obligations.ResponseCodeTruncated := by
  intro req rc s
  have hsame (rc' : Nat) (hrc : rc' % 16 = rc % 16) :
      SameResult (exec (.encodeHeader req rc) s) (exec (.encodeHeader req rc') s) :=
    have hheader : headerOf req rc = headerOf req rc' :=
      headerOf_eq_iff.mpr ⟨rfl, rfl, rfl, rfl, hrc.symm⟩
    exec_sameResult (i := .encodeHeader req rc) (j := .encodeHeader req rc') rfl (fun _ => hheader) s
  exact ⟨hsame _ (Nat.mod_mod rc 16), hsame⟩

/-- Settles O11: equal used bits give equal headers. -/
theorem dependsOnUsedBitsOnly : Obligations.DependsOnUsedBitsOnly := by
  intro i j s hi hj h0 h1 h4 h5 hcode
  have hheader : instrHeader i = instrHeader j :=
    (instrHeader_eq_iff hi hj).mpr ⟨h0, h1, h4, h5, hcode⟩
  obtain ⟨t, ht, htout, htheaders⟩ := exec_hands_over hi s
  obtain ⟨u, hu, huout, huheaders⟩ := exec_hands_over hj s
  exact ⟨t, u, ht, hu, by rw [htout, huout, hheader], by rw [htheaders, huheaders, hheader]⟩

/-- Settles O12: the slices are covered by the mask that the header fits. -/
theorem resultFitsRespHdr : Obligations.ResultFitsRespHdr := by
  intro i s hlen
  have hfit : rowEncodeHeader.accepts (instrHeader i).toVec = true := instrHeader_isResponse i
  exact ⟨_, instrHeader i, exec_of_length hlen s, rfl, (accepts_iff _ _).mp hfit,
    extractLsb'_of_accepts (start := 68) (len := 12) hfit (by decide),
    extractLsb'_of_accepts (start := 0) (len := 48) hfit (by decide)⟩

/-- Settles O13: OUT determines the header, and the header the used bits. -/
theorem resultInjective : Obligations.ResultInjective := by
  intro i j s t u hi hj hout
  obtain ⟨hwi, rfl⟩ := exec_next_inv hi
  obtain ⟨hwj, rfl⟩ := exec_next_inv hj
  rw [State.produce_out, State.produce_out] at hout
  have hheader : instrHeader i = instrHeader j := Header.store_injective hout
  exact (instrHeader_eq_iff ((wellFormed_iff i).mp hwi) ((wellFormed_iff j).mp hwj)).mp hheader

/-- Settles O14: the used bytes of the header as a request are those of the first request. -/
theorem reEncoding : Obligations.ReEncoding := by
  intro req c c' s hlen
  obtain ⟨t, ht, htout, htheaders⟩ := exec_hands_over (i := .encodeHeader req c) hlen s
  obtain ⟨u, hu, huout, huheaders⟩ :=
    exec_hands_over (i := .encodeHeader (instrHeader (.encodeHeader req c)).toBytes c')
      (by simp [Instr.req]) t
  obtain ⟨v, hv, hvout, hvheaders⟩ := exec_hands_over (i := .encodeHeader req c') hlen t
  have hagain : instrHeader (.encodeHeader (instrHeader (.encodeHeader req c)).toBytes c') =
      instrHeader (.encodeHeader req c') := by
    rw [← encode_eq_toBytes]
    exact headerOf_eq_iff.mpr ⟨rfl, rfl, rfl, rfl, rfl⟩
  refine ⟨t, _, u, v, ht, htheaders, hu, hv, by rw [huout, hvout, hagain],
    by rw [huheaders, hvheaders, hagain], ?_⟩
  rintro rfl
  rw [huout, htout, hagain]

/-- Settles O15: each operation adds its own header, whatever was performed before it. -/
theorem operationsCommute : Obligations.OperationsCommute := by
  intro i j s hi hj
  obtain ⟨ti, hexec_i, hout_i, hheaders_i⟩ := exec_hands_over hi s
  obtain ⟨tij, hexec_ij, hout_ij, hheaders_ij⟩ := exec_hands_over hj ti
  obtain ⟨tj, hexec_j, hout_j, hheaders_j⟩ := exec_hands_over hj s
  obtain ⟨tji, hexec_ji, hout_ji, hheaders_ji⟩ := exec_hands_over hi tj
  exact ⟨instrHeader i, instrHeader j, ti, tij, tj, tji, hexec_i, hexec_ij, hexec_j, hexec_ji,
    by simp [hheaders_ij, hheaders_i], by simp [hheaders_ji, hheaders_j],
    by rw [hout_i, hout_ji], by rw [hout_j, hout_ij]⟩

/-- Settles O16: the header and the fault are those of the operands. -/
theorem resultIsFunctionOfOperands : Obligations.ResultIsFunctionOfOperands := by
  intro i
  rcases Nat.lt_or_ge i.req.length 6 with hlen | hlen
  · exact .inr (exec_of_short hlen)
  · exact .inl ⟨instrHeader i, exec_hands_over hlen⟩

/-- Settles O46: by induction on the pending operations. -/
theorem dutyKeptRunCompletes : Obligations.DutyKeptRunCompletes :=
  fun _ hduty => core_run_todo rfl hduty

/-- Settles O47: by induction on the pending operations; a fault takes one and adds no header. -/
theorem everyOperationPerformed : Obligations.EveryOperationPerformed :=
  fun _ => resumeCore_run_todo rfl

end Sys2Proof.Machine

namespace Sys2Proof.Machine

/-! ## The two outcomes of a sampling (spec/41_ports.md R86, R87) -/

section
variable {lenW rcodeW : Nat}

/-- R86, R87: a tuple with a short length raises `err_o`, and `hdr_o` is the free draw of the sampling. -/
theorem PortsIn.sample_fault_of_short {p : PortsIn lenW rcodeW} (hlen : p.reqLenI.toNat < 6) (n : Nat) :
    p.sample .fault n = { errO := true, hdrO := Config.hdrUnspecified n } := by
  simp [PortsIn.sample, PortsIn.errO, hlen]

/-- R85, R86: a longer one does not, and `hdr_o` is the header of the tuple. -/
theorem PortsIn.sample_fault_of_length {p : PortsIn lenW rcodeW} (hlen : 6 ≤ p.reqLenI.toNat) (n : Nat) :
    p.sample .fault n = { errO := false, hdrO := p.header .fault } := by
  simp [PortsIn.sample, PortsIn.errO, Nat.not_lt.mpr hlen]

theorem PortsIn.sample_fault_errO_iff (p : PortsIn lenW rcodeW) (n : Nat) :
    (p.sample .fault n).errO = true ↔ p.reqLenI.toNat < 6 := decide_eq_true_iff

theorem PortsIn.sample_fault_errO_eq_false_iff (p : PortsIn lenW rcodeW) (n : Nat) :
    (p.sample .fault n).errO = false ↔ 6 ≤ p.reqLenI.toNat := decide_eq_false_iff_not.trans Nat.not_lt

/-! ## The header of a tuple (R81, R83, R92) -/

/-- R81: the ID stands at `req_i[47:32]`. -/
theorem PortsIn.reqByteAt_id (p : PortsIn lenW rcodeW) :
    p.reqByteAt 0 ++ p.reqByteAt 1 = p.reqI.extractLsb' 32 16 :=
  BitVec.extractLsb'_append_extractLsb'_eq_extractLsb' rfl

/-- R81: the QDCOUNT stands at `req_i[15:0]`. -/
theorem PortsIn.reqByteAt_qdcount (p : PortsIn lenW rcodeW) :
    p.reqByteAt 4 ++ p.reqByteAt 5 = p.reqI.extractLsb' 0 16 :=
  BitVec.extractLsb'_append_extractLsb'_eq_extractLsb' rfl

/-- R83: the code bits that reach the output, as a function of the code's value at any port width. -/
theorem PortsIn.rcodeI_setWidth (p : PortsIn lenW rcodeW) : p.rcodeI.setWidth 4 = rc4 p.rcodeI.toNat :=
  (BitVec.ofNat_toNat 4 p.rcodeI).symm

theorem PortsIn.rcodeI_extractLsb' (p : PortsIn lenW rcodeW) :
    p.rcodeI.extractLsb' 0 4 = rc4 p.rcodeI.toNat := rfl

/-- R92: the header of a tuple is that of a response, which names no port width. -/
theorem PortsIn.header_fault_eq_toVec (p : PortsIn lenW rcodeW) :
    p.header .fault =
      (responseHeader (p.reqI.extractLsb' 32 16) (p.reqI.extractLsb' 0 16) p.rcodeI.toNat).toVec := by
  rw [responseHeader_toVec, ← p.reqByteAt_id, ← p.reqByteAt_qdcount, ← p.rcodeI_setWidth]
  rfl

/-! ## The requests that a tuple stands for (R91) -/

/-- The request has the tuple's length and agrees with `req_i` in the bytes it has; bytes from offset 6 up
have no port. -/
structure PortsIn.Carries (p : PortsIn lenW rcodeW) (req : List Byte) : Prop where
  length : req.length = p.reqLenI.toNat
  byte : ∀ k, k < 6 → k < req.length → req[k]? = some (p.reqByteAt k)

/-- R91: from six bytes up the ports show the header of the operation on any request they carry. -/
theorem PortsIn.Carries.sample_fault {p : PortsIn lenW rcodeW} {req : List Byte} (hp : p.Carries req)
    (hlen : 6 ≤ req.length) (n : Nat) :
    p.sample .fault n =
      { errO := false, hdrO := (instrHeader (.encodeHeader req p.rcodeI.toNat)).toVec } := by
  have hused (k : Nat) (hk : k < 6) : p.usedByte .fault k = byteOrZero req k :=
    (byteOrZero_of_getElem? (hp.byte k hk (by omega))).symm
  rw [PortsIn.sample_fault_of_length (hp.length ▸ hlen),
    PortsIn.header_eq_toVec hused p.rcodeI_setWidth]
  rfl

/-- The request read off a tuple is one of them. -/
theorem PortsIn.carries_request (p : PortsIn lenW rcodeW) : p.Carries p.request := by
  have hlength : p.request.length = p.reqLenI.toNat := by
    simp only [PortsIn.request, Config.reqMinBytes_eq, List.length_take, List.length_append,
      List.length_map, List.length_range, List.length_replicate]
    omega
  refine ⟨hlength, fun k hk hk' => ?_⟩
  rw [PortsIn.request, List.getElem?_take_of_lt (hlength ▸ hk'),
    List.getElem?_append_left (by simpa using hk)]
  simp [hk]

end

/-! ## OUT as the bytes of a vector (R85, R91) -/

/-- R91: ports that show the header of an operation agree with it byte by byte. -/
theorem exec_refined_by_ports {i : Instr} (hlen : 6 ≤ i.req.length) {o : PortsOut}
    (ho : o = { errO := false, hdrO := (instrHeader i).toVec }) (s : State) :
    ∃ t, exec i s = .next t ∧ o.errO = false ∧
      ∀ k, k < 12 → Memory.read t.out k = some (o.hdrO.extractLsb' (88 - 8 * k) 8) := by
  obtain ⟨t, hexec, hout, _⟩ := exec_hands_over hlen s
  subst ho
  refine ⟨t, hexec, rfl, fun k hk => ?_⟩
  rw [hout, Header.read_store, Header.getElem?_toBytes _ hk]

/-! ## The obligations of spec/41_ports.md -/

/-- Settles O26: the header of the tuple, field by field. -/
theorem portExpression : Obligations.PortExpression := by
  refine fun lenW rcodeW n p => ⟨p.sample_fault_errO_iff n, fun herr => ?_⟩
  have hlen : 6 ≤ p.reqLenI.toNat := (p.sample_fault_errO_eq_false_iff n).mp herr
  rw [PortsIn.sample_fault_of_length hlen, p.header_fault_eq_toVec, responseHeader_toVec,
    ← p.rcodeI_extractLsb']

/-- Settles O29: a tuple carries its request, and so does an operation as it is presented. -/
theorem portsRefineOperation : Obligations.PortsRefineOperation := by
  refine fun lenW rcodeW n s hlenW hrcodeW => ⟨fun p req hlength hbyte => ⟨?short, ?long⟩, ?presented,
    ?presentedShort⟩
  case short =>
    intro hlen
    exact ⟨exec_of_short (i := .encodeHeader req _) hlen s,
      (p.sample_fault_errO_iff n).mpr (hlength ▸ hlen)⟩
  case long =>
    intro hlen
    have hp : p.Carries req := ⟨hlength, hbyte⟩
    exact exec_refined_by_ports (i := .encodeHeader req _) hlen (hp.sample_fault hlen n) s
  case presented =>
    intro req rc hlen
    exact exec_refined_by_ports (i := .encodeHeader req rc) hlen
      (presentPorts_sample_fault hlenW hrcodeW hlen rc n) s
  case presentedShort =>
    intro req rc reqI rcodeI hlen
    have hport : (BitVec.ofNat lenW req.length).toNat < 6 := by
      rw [BitVec.toNat_ofNat]
      exact (Nat.mod_le _ _).trans_lt hlen
    exact ⟨exec_of_short (i := .encodeHeader req rc) hlen s,
      (PortsIn.sample_fault_errO_iff _ n).mpr hport⟩

/-- Settles O30: the request read off a tuple is one that the tuple carries. -/
theorem tupleOperationOutcome : Obligations.TupleOperationOutcome := by
  intro p n s
  have hp : p.Carries p.operation.req := p.carries_request
  rw [p.sample_fault_errO_iff, p.sample_fault_errO_eq_false_iff, ← hp.length]
  refine ⟨fun hlen => exec_of_short hlen s, fun hlen => ?_⟩
  obtain ⟨t, hexec, _, hheaders⟩ := exec_hands_over hlen s
  refine ⟨t, _, hexec, hheaders, ?_⟩
  rw [hp.sample_fault hlen]
  rfl

/-- Settles O32: by induction on the tuples; the number of the sampling counts those before it. -/
theorem portsHaveNoMemory : Obligations.PortsHaveNoMemory := by
  intro lenW rcodeW n k ps
  induction ps generalizing n k with
  | nil => rfl
  | cons p ps ih =>
    cases k with
    | zero => rfl
    | succ k =>
      have hnumber : n + 1 + k = n + (k + 1) := by omega
      simpa [sampleAll, hnumber] using ih (n + 1) k

/-- Settles O27: `err_o` compares the length and reads nothing else. -/
theorem errFollowsLengthAlone : Obligations.ErrFollowsLengthAlone := by
  refine fun lenW rcodeW n m p q => ⟨p.sample_fault_errO_iff n, fun hlen => Bool.eq_iff_iff.mpr ?_⟩
  rw [p.sample_fault_errO_iff, q.sample_fault_errO_iff, hlen]

/-- Settles O28: the branch of the sampling that raises `err_o`. -/
theorem hdrUnspecifiedUnderErr : Obligations.HdrUnspecifiedUnderErr :=
  fun _ _ n _ hlen => PortsIn.sample_fault_of_short hlen n

/-- Settles O31: both outcomes of a sampling read the values on the ports and no width. -/
theorem widthsChangeNoOutput : Obligations.WidthsChangeNoOutput := by
  intro lenW rcodeW lenW' rcodeW' n p q hreq hlength hcode
  rcases Nat.lt_or_ge p.reqLenI.toNat 6 with hlen | hlen
  · rw [PortsIn.sample_fault_of_short hlen, PortsIn.sample_fault_of_short (hlength ▸ hlen)]
  · rw [PortsIn.sample_fault_of_length hlen, PortsIn.sample_fault_of_length (hlength ▸ hlen),
      p.header_fault_eq_toVec, q.header_fault_eq_toVec, hreq, hcode]

end Sys2Proof.Machine

namespace Sys2Proof.Machine

/-! ## When an operation, and when a step, faults (spec/60_exceptions.md R100, R101) -/

/-- R100, R101: only a request of fewer than six bytes faults, and the fault carries its length. -/
theorem exec_eq_fault_iff {i : Instr} {s : State} {f : Fault} :
    exec i s = .fault f ↔ i.req.length < 6 ∧ f = .undersizedRequest i.req.length := by
  rcases Nat.lt_or_ge i.req.length 6 with hlen | hlen
  · rw [exec_of_short hlen, Host.Outcome.fault.injEq]
    simp only [hlen, true_and, eq_comm]
  · simp [exec_of_length hlen, Nat.not_lt.mpr hlen]

/-- A step faults exactly as the first pending operation does. -/
theorem step_eq_fault_iff {s : State} {f : Fault} :
    step s = .fault f ↔ ∃ i rest, s.todo = i :: rest ∧ exec i { s with todo := rest } = .fault f := by
  obtain ⟨hcons, hnil⟩ := stepPerformsNextOperation s
  constructor
  · intro hstep
    cases htodo : s.todo with
    | nil => cases (hnil htodo).symm.trans hstep
    | cons i rest => exact ⟨i, rest, rfl, (hcons i rest htodo).symm.trans hstep⟩
  · rintro ⟨i, rest, htodo, hexec⟩
    exact (hcons i rest htodo).trans hexec

/-! ## `err_o` while an operation stands at the ports (R86, R106) -/

theorem State.present_errO (s : State) (req : List Byte) (rc n : Nat) :
    ((s.present req rc).outputs n).errO = decide (req.length < 6) :=
  presentPorts_errO_fault (by decide) _ req rc

theorem State.produce_outputs (s : State) (h : Header) (n : Nat) :
    (s.produce h).outputs n = s.outputs n := rfl

/-! ## What the block that goes on sees of a state (R106, R108) -/

theorem stepOn_nil {s : State} (htodo : s.todo = []) : stepOn s = .refused .noOperation := by
  simp only [stepOn, s.takeOperation_nil htodo]

theorem stepOn_of_short {s : State} {i : Instr} {rest : List Instr} (htodo : s.todo = i :: rest)
    (hlen : i.req.length < 6) : stepOn s = .next (({ s with todo := rest } : State).afterFault i) := by
  rcases stepOn_cons htodo with ⟨hw, _⟩ | ⟨_, hstep⟩
  · exact absurd ((wellFormed_iff i).mp hw) (Nat.not_le.mpr hlen)
  · exact hstep

theorem stepOn_of_wellFormed {s : State} {i : Instr} {rest : List Instr} (htodo : s.todo = i :: rest)
    (hw : i.wellFormed = true) :
    stepOn s = .next (({ s with todo := rest }.present i.req i.rc).produce (instrHeader i)) := by
  rcases stepOn_cons htodo with ⟨_, hstep⟩ | ⟨hbad, _⟩
  · exact hstep
  · exact absurd (hw.symm.trans hbad) (by decide)

/-- R89, R108: an operation presented replaces REQ, OUT and the ports, so a step of the block that goes on
reads the caller's lists alone. -/
theorem stepOn_congr {s t : State} (hheaders : s.headers = t.headers) (htodo : s.todo = t.todo) :
    stepOn s = stepOn t := by
  cases ht : t.todo with
  | nil => rw [stepOn_nil ht, stepOn_nil (htodo.trans ht)]
  | cons i rest =>
    have hpresent : ({ s with todo := rest } : State).present i.req i.rc =
        ({ t with todo := rest } : State).present i.req i.rc := by
      simp only [State.present, hheaders]
    rcases Nat.lt_or_ge i.req.length 6 with hlen | hlen
    · rw [stepOn_of_short ht hlen, stepOn_of_short (htodo.trans ht) hlen]
      exact congrArg Host.Outcome.next hpresent
    · have hw : i.wellFormed = true := (wellFormed_iff i).mpr hlen
      rw [stepOn_of_wellFormed ht hw, stepOn_of_wellFormed (htodo.trans ht) hw, hpresent]

/-! ## The obligations of spec/60_exceptions.md -/

/-- Settles O10: the operation's length decides the fault and `err_o`, and the code is written modulo 16. -/
theorem outOfRangeCodeIsNoFault : Obligations.OutOfRangeCodeIsNoFault := by
  intro req rc s hlen _
  refine ⟨_, exec_of_length (i := .encodeHeader req rc) hlen s, ?code, fun n => ?err⟩
  case code =>
    rw [State.produce_out, Header.read_store, instrHeader, headerOf_toBytes]
    rfl
  case err =>
    rw [State.produce_outputs, State.present_errO]
    exact decide_eq_false (Nat.not_lt.mpr hlen)

/-- Settles O21: a longer request answers a next state, which is no fault. -/
theorem undersizedRaisedExactly : Obligations.UndersizedRaisedExactly := by
  refine fun i s => ⟨⟨?_, fun hlen => ⟨_, exec_of_short hlen s⟩⟩, fun hlen => exec_of_short hlen s⟩
  rintro ⟨f, hexec⟩
  exact (exec_eq_fault_iff.mp hexec).1

/-- Settles O22: the fault carries the length and nothing else of the operation or the state. -/
theorem lengthCheckComesFirst : Obligations.LengthCheckComesFirst := by
  intro i j s s' hlen hsame
  have hfault (s : State) : exec j s = .fault (.undersizedRequest i.req.length) :=
    hsame ▸ exec_of_short (hsame ▸ hlen) s
  exact ⟨exec_of_short hlen s, (hfault s').trans (exec_of_short hlen s).symm⟩

/-- Settles O23: the fault replaces REQ, OUT and the ports, which the next step does not read. -/
theorem faultLeavesNoTrace : Obligations.FaultLeavesNoTrace := by
  intro i rest s htodo hlen
  refine ⟨_, stepOn_of_short htodo hlen, rfl, rfl, rfl, ?req, fun n => ?err, stepOn_congr rfl rfl⟩
  case req => exact fun k => Memory.read_ofBytes i.req k
  case err => exact (State.present_errO _ i.req i.rc n).trans (decide_eq_true hlen)

/-- Settles O24: a step faults as its operation does, and the operation by its length. -/
theorem goesWrongExactlyOnBrokenDuty : Obligations.GoesWrongExactlyOnBrokenDuty := by
  intro s
  simp only [State.GoesWrong, step_eq_fault_iff, exec_eq_fault_iff, Fault.undersizedRequest.injEq]
  constructor
  · rintro ⟨_, i, rest, htodo, hlen, _⟩
    exact ⟨i, rest, htodo, hlen⟩
  · rintro ⟨i, rest, htodo, hlen⟩
    exact ⟨_, i, rest, htodo, hlen, rfl⟩

end Sys2Proof.Machine
